-- ==== Sys2Proof/Word.lean ====
section
/-! DEFINITION. The bytes and words of the codec, and the records made of them that an instruction,
an operand or a result can carry (spec/00_scope.md R8; spec/10_state.md R10 to R14; spec/30_encoding.md R51). -/

namespace Sys2Proof

/-- A byte: 8 bits, bit 0 the least significant (R8). -/
abbrev Byte := BitVec 8

/-- A u16 field (R11). -/
abbrev Half := BitVec 16

/-- A u32 field (R12). -/
abbrev Word := BitVec 32

/-- The nine independent flags of a header (R13). -/
structure Flags where
  fin : Bool
  syn : Bool
  rst : Bool
  psh : Bool
  ack : Bool
  urg : Bool
  ece : Bool
  cwr : Bool
  ns : Bool
deriving DecidableEq, Repr, Inhabited

/-- The fixed 20-byte prefix as the wire carries it (R51): the length field is still a nibble, and
the three bits of byte 12 that no header field receives (R60) are kept as `unassigned`. -/
structure FixedPrefix where
  sourcePort : Half
  destPort : Half
  sequenceNumber : Word
  acknowledgmentNumber : Word
  lengthNibble : BitVec 4
  unassigned : BitVec 3
  flags : Flags
  window : Half
  checksum : Half
  urgentPointer : Half
deriving DecidableEq, Repr

/-- The three formats of spec/opcode_table.json: an operation select (R62), the fixed prefix (R51),
an option record (R56 to R58). The format is known from where the block reads; no bit carries it. -/
inductive Format
  | op
  | header
  | option
deriving DecidableEq, Repr

/-- Why bytes decode to no instruction. -/
inductive Reject
  /-- No byte to decode. -/
  | noBytes
  /-- An operation select laid out as a byte whose upper six bits are not 0: `op` has two bits (R62). -/
  | selectTooWide
  /-- Fewer than 20 bytes where the fixed prefix is read (R51). -/
  | prefixTooShort
deriving DecidableEq, Repr

namespace Machine

/-- An entry of the options list (R14). -/
structure Entry where
  kind : Byte
  value : List Byte
deriving DecidableEq, Repr, Inhabited

/-- A Header: exactly ten fields (R10). `headerLength` is an unbounded natural (R6, R21; log 7). -/
structure Header where
  sourcePort : Half
  destPort : Half
  sequenceNumber : Word
  acknowledgmentNumber : Word
  flags : Flags
  window : Half
  checksum : Half
  urgentPointer : Half
  headerLength : Nat
  options : List Entry
deriving DecidableEq, Repr, Inhabited

end Machine

end Sys2Proof
end

