-- ==== Sys2Proof/Machine/Bytes.lean ====
section
/-! DEFINITION. The byte order, in one place: big-endian, both ways (spec/20_memory.md R32;
spec/30_encoding.md R54). -/

namespace Sys2Proof.Machine

/-- The 2-byte field whose bytes in address order are `b0 b1`: `256*b0 + b1` (R32). -/
def join2 (b0 b1 : Byte) : Half := b0 ++ b1

/-- The 4-byte field whose bytes in address order are `b0 b1 b2 b3` (R32). -/
def join4 (b0 b1 b2 b3 : Byte) : Word := b0 ++ b1 ++ b2 ++ b3

/-- The bytes of a 2-byte field, most significant first (R9 `MemWrite`). -/
def split2 (w : Half) : List Byte := [w.extractLsb' 8 8, w.extractLsb' 0 8]

/-- The bytes of a 4-byte field, most significant first (R9 `MemWrite`). -/
def split4 (w : Word) : List Byte :=
  [w.extractLsb' 24 8, w.extractLsb' 16 8, w.extractLsb' 8 8, w.extractLsb' 0 8]

end Sys2Proof.Machine
end

