-- ==== Sys2Proof/Config.lean ====
section
/-! DEFINITION. The constants the spec fixes (spec/00_scope.md R5), the parameters it leaves open (R6),
and the free values of the model. -/

namespace Sys2Proof.Config

/-- Bytes of the fixed prefix, and the least legal header length (R5). -/
abbrev fixedLen : Nat := 20

/-- The greatest legal header length (R5). -/
abbrev maxHlen : Nat := 60

/-- The greatest size of the options region (R5). -/
abbrev maxOptBytes : Nat := 40

/-- Bytes per unit of the length nibble (R5). -/
abbrev lenUnit : Nat := 4

/-- The kind that ends the options list (R5). -/
abbrev kindEol : Byte := 0

/-- The single-byte no-operation kind (R5). -/
abbrev kindNop : Byte := 1

/-- The type of the checksum hook's context operand (R6): "any type; never inspected".
DESIGN CHOICE (log 8): a list of bytes. -/
abbrev IpCtx := List Byte

/-- FREE VALUE (log 9). After a reset during an ENCODE into the host's buffer, does the byte at header
offset `k` of the target range hold its new value (true) or its old one (false)? The spec says only
"any mixture of old and new values" (spec/70_reset_and_hazards.md R150). The first argument is
`State.freeIndex` at that reset. -/
opaque resetMix : Nat → Nat → Bool

/-- FREE VALUE (log 19). The bytes a host finds at the result port while the result bytes are invalid, their
number included: "unspecified contents" (spec/70_reset_and_hazards.md R150), "any value"
(spec/93_implementation_defined.md U11). The argument is `State.freeIndex` at that read. -/
opaque invalidBytes : Nat → List Byte

/-- FREE VALUE (log 19). The Header a host finds at the result port while the result Header is invalid
(spec/70_reset_and_hazards.md R150; spec/93_implementation_defined.md U11). The argument is
`State.freeIndex` at that read. -/
opaque invalidHeader : Nat → Machine.Header

end Sys2Proof.Config
end

