-- ==== Sys2Proof/Syntax.lean ====
section
/-! DEFINITION. The instructions: one constructor per row of spec/opcode_table.json (spec/00_scope.md R7). -/

namespace Sys2Proof

/-- The instructions. The seven TLV rows of the table are one record form (spec/30_encoding.md R58) cut
by kind; a row's constructor carries the bits of the kind that the row leaves free, the encoded length
byte `len`, and the value bytes. -/
inductive Instr
  /-- R80, `op = 00`. Operands: `SRC`, `offset`. -/
  | decode
  /-- R72, `op = 01`. Operand: the field set `F`. -/
  | construct
  /-- R100, `op = 10`. Operands: `H`, `buf_present`, `DST`, `offset`. -/
  | encode
  /-- R121, `op = 11`. Operands: `ipctx`, `DST`, `offset`, none of them examined. -/
  | checksum
  /-- R51, the fixed prefix. -/
  | hdr20 (p : FixedPrefix)
  /-- R56, kind 0. -/
  | optEol
  /-- R57, kind 1. -/
  | optNop
  /-- R58, kinds 0x02 and 0x03. -/
  | optTlvK02 (lo : BitVec 1) (len : Byte) (value : List Byte)
  /-- R58, kinds 0x04 to 0x07. -/
  | optTlvK04 (lo : BitVec 2) (len : Byte) (value : List Byte)
  /-- R58, kinds 0x08 to 0x0F. -/
  | optTlvK08 (lo : BitVec 3) (len : Byte) (value : List Byte)
  /-- R58, kinds 0x10 to 0x1F. -/
  | optTlvK10 (lo : BitVec 4) (len : Byte) (value : List Byte)
  /-- R58, kinds 0x20 to 0x3F. -/
  | optTlvK20 (lo : BitVec 5) (len : Byte) (value : List Byte)
  /-- R58, kinds 0x40 to 0x7F. -/
  | optTlvK40 (lo : BitVec 6) (len : Byte) (value : List Byte)
  /-- R58, kinds 0x80 to 0xFF. -/
  | optTlvK80 (lo : BitVec 7) (len : Byte) (value : List Byte)
deriving DecidableEq, Repr

end Sys2Proof
end

