-- ==== Sys2Proof/Machine/State.lean ====
section
/-! DEFINITION. The state of the codec, as plain data: the host's operand ports, the block's status and
results, the operation-local state, and the host's script (spec/10_state.md R10 to R20;
spec/20_memory.md R30; spec/70_reset_and_hazards.md R150). -/

namespace Sys2Proof.Machine

/-- A buffer (R30): bytes at addresses 0 to `len - 1`. The bytes are held as (address, byte) pairs; an
address below `len` that is not listed holds 0, the value of a fresh buffer's bytes (R37). -/
structure Memory where
  len : Nat
  cells : List Host.Cell
deriving DecidableEq, Repr

/-- The error kinds (R130). -/
inductive ErrorKind
  /-- R131. -/
  | invalidHeaderLength
  /-- R132. -/
  | bufferTooShort
  /-- R133. -/
  | malformedOption
  /-- R134. -/
  | notSupported
deriving DecidableEq, Repr

/-- The status of an operation that has ended: `OK` or exactly one error kind (R17). -/
inductive Status
  | ok
  | error (k : ErrorKind)
deriving DecidableEq, Repr

/-- The state of the option loop of a DECODE in progress (R16): the fields the fixed prefix gave, the
cursor `pos`, the end of the options region, and the entries appended so far. -/
structure DecodeLocal where
  header : Header
  pos : Nat
  regionEnd : Nat
  opts : List Entry
deriving DecidableEq, Repr

/-- The state of an ENCODE in progress (R16, R102, R108): the destination, the header start in it, the
cursor, and the entries not yet written. -/
structure EncodeLocal where
  out : Memory
  start : Nat
  pos : Nat
  pending : List Entry
deriving DecidableEq, Repr

/-- Which part of an operation is under way. -/
inductive Phase
  /-- No operation in progress: the block accepts an operation (R150). -/
  | idle
  /-- DECODE has passed its first bounds check and reads the fixed prefix next (R81, R82). -/
  | decodePrefix
  /-- DECODE is in its option loop (R86). -/
  | decodeOptions (d : DecodeLocal)
  /-- ENCODE has passed its checks and writes the fixed prefix next (R103, R104). -/
  | encodePrefix (e : EncodeLocal)
  /-- ENCODE emits options (R108). -/
  | encodeOptions (e : EncodeLocal)
deriving DecidableEq, Repr

/-- What the host does (spec/10_state.md R18; log 3). One action is taken in each step of an idle block. -/
inductive HostEvent
  /-- Drive the SRC port with these bytes. -/
  | setSrc (bytes : List Byte)
  /-- Drive the DST port with these bytes. -/
  | setDst (bytes : List Byte)
  /-- Drive `offset`. -/
  | setOffset (n : Nat)
  /-- Drive CONSTRUCT's field set `F`. -/
  | setFields (h : Header)
  /-- Drive ENCODE's operand `H`. -/
  | setHeader (h : Header)
  /-- Drive `buf_present`. -/
  | setBufPresent (b : Bool)
  /-- Drive `ipctx`. -/
  | setIpctx (x : Config.IpCtx)
  /-- Hand the buffer at DST to the SRC port (R43): a copy, later writes to DST do not show at SRC (log 20). -/
  | srcFromDst
  /-- Hand the result bytes to the SRC port (R43): a copy (log 20). -/
  | srcFromResult
  /-- Hand the result bytes to the DST port (R43): a copy (log 20). -/
  | dstFromResult
  /-- Hand the result Header to ENCODE's operand port. -/
  | headerFromResult
  /-- The external collaborator fills in the checksum: it stores two bytes at `offset + 16` and
  `offset + 17` of DST (R45, R122). -/
  | collaborator (b16 b17 : Byte)
  /-- Invoke the selected operation: one indivisible transaction (R18, R40). -/
  | issue (op : BitVec 2)
  /-- Invoke the selected operation and run it record by record, one record in each step (R7, R86,
  R108; log 4). -/
  | walk (op : BitVec 2)
  /-- Schedule a reset after this many further steps (R150; log 9). -/
  | reset (after : Nat)
deriving DecidableEq, Repr

/-- Why the machine stops. No operation of the spec stops the machine: its errors are statuses. -/
inductive Fault
  /-- An access to an address at or beyond a buffer's length, which the primitives of R9 do not define.
  Raised by `Memory.get` and `Memory.set`; safe: the model stops. No operation reaches it (R35, R36); the
  collaborator's action reaches it where DST holds no encoded header at `offset` (log 16). -/
  | outsideBuffer
deriving DecidableEq, Repr

/-- Why an instruction is given no meaning. -/
inductive Refusal
  /-- No meaning yet. Raised by `exec` alone; safe. No arm of `exec` raises it. -/
  | notModelled (mnemonic : String)
  /-- A fixed prefix or an option record outside the part of an operation that handles it: these forms
  are interpreted inside DECODE and emitted inside ENCODE only (R7, R16). Raised by their meanings;
  safe: no run reaches it. -/
  | outOfPlace
  /-- Bytes that decode to no instruction. Raised by `fetch`; safe: no run reaches it. -/
  | notDecoded (why : Reject)
deriving DecidableEq, Repr

/-- The machine. -/
structure State where
  /-- The operation select last presented (R18, R62). -/
  op : BitVec 2
  /-- The source buffer SRC (R18, R30). -/
  src : Memory
  /-- The destination buffer DST (R18, R30). -/
  dst : Memory
  /-- The buffer address of the header start (R18, R31). -/
  offset : Nat
  /-- CONSTRUCT's field set `F` (R18). -/
  fields : Header
  /-- ENCODE's operand `H` (R18). -/
  header : Header
  /-- Does the host supply DST to ENCODE (R18)? -/
  bufPresent : Bool
  /-- CHECKSUM's context operand (R18). -/
  ipctx : Config.IpCtx
  /-- The status of the last operation that ended; `none` is invalid, no operation has ended (R17, R150). -/
  status : Option Status
  /-- The result Header; `none` is not valid (R18). -/
  resultHeader : Option Header
  /-- The result bytes; `none` is not valid (R18). -/
  resultBytes : Option Memory
  /-- The operation-local state (R16). -/
  phase : Phase
  /-- The MODEL's own: what the host will do, oldest first (log 3). -/
  host : List HostEvent
  /-- The MODEL's own: `some n`, a reset happens after `n` more steps (log 9). -/
  resetIn : Option Nat
  /-- The MODEL's own: the index of the next free value, of `Config.resetMix`, `Config.invalidBytes` and
  `Config.invalidHeader` (log 10). -/
  freeIndex : Nat
deriving DecidableEq, Repr

/-- Why a computation inside an operation ends early: an error kind of the spec, or a stop of the model. -/
inductive Halt
  /-- `raise <Kind>` (R9). -/
  | raise (k : ErrorKind)
  /-- An access outside a buffer. -/
  | fault (f : Fault)
deriving DecidableEq, Repr

/-- What one turn of the option decoder finds (R86). -/
inductive RecordStep
  /-- EOL: leave the loop (R87). -/
  | stop
  /-- An entry to append and the record's size (R88, R89). -/
  | append (o : Entry) (size : Nat)
deriving DecidableEq, Repr

/-- What the machine does next: run an instruction from a state, or something that is no instruction
(an action of the host, an idle step, the emission of a kind-0 entry), with its outcome. -/
inductive Fetched
  | run (i : Instr) (s : State)
  | other (o : Host.Outcome State Fault Refusal)

/-- The empty buffer. -/
def Memory.empty : Memory where
  len := 0
  cells := []

/-- All flags clear. -/
def Flags.clear : Flags where
  fin := false
  syn := false
  rst := false
  psh := false
  ack := false
  urg := false
  ece := false
  cwr := false
  ns := false

/-- The value of a Header port nobody has driven (DESIGN CHOICE, log 5). -/
def Header.zero : Header where
  sourcePort := 0
  destPort := 0
  sequenceNumber := 0
  acknowledgmentNumber := 0
  flags := Flags.clear
  window := 0
  checksum := 0
  urgentPointer := 0
  headerLength := 0
  options := []

/-- The machine right after reset (R150): idle, status and results invalid. The spec gives the host's
operand ports no value (DESIGN CHOICE, log 5: zero and empty); the host's script is empty, no reset is
scheduled (log 3, log 9), and `freeIndex` is 0 (DESIGN CHOICE, log 10). -/
def State.reset : State where
  op := 0
  src := Memory.empty
  dst := Memory.empty
  offset := 0
  fields := Header.zero
  header := Header.zero
  bufPresent := false
  ipctx := []
  status := none
  resultHeader := none
  resultBytes := none
  phase := .idle
  host := []
  resetIn := none
  freeIndex := 0

end Sys2Proof.Machine
end

