-- ==== Sys2Proof/Machine/Ops.lean ====
section
/-! DEFINITION. The operations the meanings share: buffer access (spec/00_scope.md R9;
spec/20_memory.md R30 to R38), and the ways an operation ends (spec/10_state.md R17;
spec/60_exceptions.md R136). -/

namespace Sys2Proof.Machine

/-! ### Computations that may raise -/

/-- A computation inside an operation. -/
abbrev Op (α : Type) := Except Halt α

/-- `raise <Kind>` (R9). -/
abbrev raising {α : Type} (k : ErrorKind) : Op α := .error (.raise k)

/-! ### Buffers -/

/-- What an address below the length that is not listed holds (R37; log 1). -/
def Memory.unlisted : Byte := 0

/-- The byte the list gives an address. -/
def cellAt : List Host.Cell → Nat → Byte
  | [], _ => Memory.unlisted
  | (a', v) :: rest, a => if a' = a then v else cellAt rest a

/-- Put a byte at an address, keeping the addresses rising and no entry at the unlisted value. -/
def setCell : List Host.Cell → Nat → Byte → List Host.Cell
  | [], a, v => if v = Memory.unlisted then [] else [(a, v)]
  | (a', v') :: rest, a, v =>
    if a < a' then (if v = Memory.unlisted then (a', v') :: rest else (a, v) :: (a', v') :: rest)
    else if a = a' then (if v = Memory.unlisted then rest else (a, v) :: rest)
    else (a', v') :: setCell rest a v

/-- Do the addresses rise strictly from `lo` on, below `len`, with no entry at the unlisted value? -/
def cellsWf (len : Nat) : Nat → List Host.Cell → Bool
  | _, [] => true
  | lo, (a, v) :: rest =>
    decide (lo ≤ a) && decide (a < len) && decide (v ≠ Memory.unlisted) && cellsWf len (a + 1) rest

/-- The canonical form of a buffer: equal buffers are equal data. -/
def Memory.wf (m : Memory) : Bool := cellsWf m.len 0 m.cells

/-- One byte of a buffer; an address outside it does not exist (R9, R30). -/
def Memory.get (m : Memory) (a : Nat) : Op Byte :=
  if a < m.len then .ok (cellAt m.cells a) else .error (.fault .outsideBuffer)

/-- Store one byte in a buffer (R9, R30). -/
def Memory.set (m : Memory) (a : Nat) (v : Byte) : Op Memory :=
  if a < m.len then .ok { m with cells := setCell m.cells a v } else .error (.fault .outsideBuffer)

/-- `MemRead(addr, 1)` (R9). -/
def Memory.read8 (m : Memory) (a : Nat) : Op Byte := m.get a

/-- `MemRead(addr, 2)`, big-endian (R9, R32). -/
def Memory.read16 (m : Memory) (a : Nat) : Op Half := do
  let b0 ← m.get a
  let b1 ← m.get (a + 1)
  return join2 b0 b1

/-- `MemRead(addr, 4)`, big-endian (R9, R32). -/
def Memory.read32 (m : Memory) (a : Nat) : Op Word := do
  let b0 ← m.get a
  let b1 ← m.get (a + 1)
  let b2 ← m.get (a + 2)
  let b3 ← m.get (a + 3)
  return join4 b0 b1 b2 b3

/-- `MemReadBytes(addr, n)` (R9). -/
def Memory.readBytes (m : Memory) : Nat → Nat → Op (List Byte)
  | _, 0 => .ok []
  | a, n + 1 => do
    let b ← m.get a
    let bs ← m.readBytes (a + 1) n
    return b :: bs

/-- `MemWriteBytes(addr, s)` (R9). `MemWrite(addr, n, v)` is this of the `n` bytes of `v`, most
significant first (`split2`, `split4`). -/
def Memory.writeBytes (m : Memory) : Nat → List Byte → Op Memory
  | _, [] => .ok m
  | a, b :: bs => do
    let m' ← m.set a b
    m'.writeBytes (a + 1) bs

/-- A fresh buffer of `n` zero bytes (R37, R102). -/
def Memory.zeros (n : Nat) : Memory where
  len := n
  cells := []

/-- The canonical cells of bytes that stand from address `a` on. -/
def cellsFrom : Nat → List Byte → List Host.Cell
  | _, [] => []
  | a, b :: bs => if b = Memory.unlisted then cellsFrom (a + 1) bs else (a, b) :: cellsFrom (a + 1) bs

/-- The buffer that holds these bytes from address 0 on. -/
def Memory.ofBytes (bs : List Byte) : Memory where
  len := bs.length
  cells := cellsFrom 0 bs

/-- The bytes of a buffer in address order. -/
def Memory.toBytes (m : Memory) : List Byte := (List.range m.len).map (cellAt m.cells)

/-! ### How an operation ends -/

/-- ERROR ENTRY (R136): the operation ends with the status and nothing else. There is no result, no
buffer is written, no state is saved, no control goes to a vector, and the block is idle again (R158).
There is no return from an error (R137): the next operation runs as if this one had not been issued. -/
def State.raise (k : ErrorKind) (s : State) : State :=
  { s with status := some (.error k), resultHeader := none, resultBytes := none, phase := .idle }

/-- The numeric code of a status port (R130, the spec's decision D3); no rule depends on it. -/
def Status.code : Status → Nat
  | .ok => 0
  | .error .invalidHeaderLength => 1
  | .error .bufferTooShort => 2
  | .error .malformedOption => 3
  | .error .notSupported => 4

/-- The operation ends with status OK and a Header (R17, R18). -/
def State.endHeader (h : Header) (s : State) : State :=
  { s with status := some .ok, resultHeader := some h, resultBytes := none, phase := .idle }

/-- ENCODE ends with status OK and its destination bytes; the caller's DST, where there is one, is the
buffer so modified (R100). DESIGN CHOICE (log 20): the result bytes are a copy, and a later write to DST does
not show in them, nor in SRC. -/
def State.endBytes (out : Memory) (s : State) : State :=
  { s with status := some .ok, resultHeader := none, resultBytes := some out, phase := .idle,
           dst := if s.bufPresent then out else s.dst }

/-- The operation goes on: only its local state changes (R16). -/
def State.setPhase (p : Phase) (s : State) : State := { s with phase := p }

/-- A computation inside an operation has ended early. -/
def halted (x : Halt) (s : State) : Host.Outcome State Fault Refusal :=
  match x with
  | .raise k => .next (s.raise k)
  | .fault f => .fault f

/-- End an operation with the outcome of its computation. -/
def endWith {α : Type} (r : Op α) (fin : α → State → State) (s : State) :
    Host.Outcome State Fault Refusal :=
  match r with
  | .ok x => .next (fin x s)
  | .error x => halted x s

end Sys2Proof.Machine
end

