-- ==== Sys2Proof/Machine/ChecksumOp.lean ====
section
/-! DEFINITION. CHECKSUM: the declared, unimplemented hook (spec/43_checksum_hook.md). -/

namespace Sys2Proof.Machine

/-- CHECKSUM (R121): always NotSupported; nothing is read, nothing written, no operand examined. -/
def execChecksum (s : State) : Host.Outcome State Fault Refusal := .next (s.raise .notSupported)

end Sys2Proof.Machine
end

