-- ==== Sys2Proof/Machine/Flags.lean ====
section
/-! DEFINITION. Packing and unpacking of header bytes 12 and 13 (spec/30_encoding.md R52, R53, R55). -/

namespace Sys2Proof.Machine

/-- Byte 13 (R53): bit 7 `cwr` down to bit 0 `fin`. -/
def flagsByte (f : Flags) : Byte :=
  BitVec.ofBool f.cwr ++ BitVec.ofBool f.ece ++ BitVec.ofBool f.urg ++ BitVec.ofBool f.ack ++
    BitVec.ofBool f.psh ++ BitVec.ofBool f.rst ++ BitVec.ofBool f.syn ++ BitVec.ofBool f.fin

/-- Byte 12 (R52): the length nibble in bits 7:4, three bits no field receives, `ns` in bit 0. -/
def byte12 (nibble : BitVec 4) (unassigned : BitVec 3) (ns : Bool) : Byte :=
  nibble ++ unassigned ++ BitVec.ofBool ns

/-- The length nibble of a header length: `headerLength div 4` (R52). -/
def lengthNibble (headerLength : Nat) : BitVec 4 := BitVec.ofNat 4 (headerLength / 4)

/-- The header length a nibble stands for: `4 * n` (R52, R83). -/
def nibbleLength (nibble : BitVec 4) : Nat := 4 * nibble.toNat

/-- Byte 12 as ENCODE writes it: bits 3:1 are 0 (R55 `lenByte`, R105). -/
def lenByte (headerLength : Nat) (f : Flags) : Byte := byte12 (lengthNibble headerLength) 0 f.ns

/-- The flags read from bytes 12 and 13 (R55). -/
def unpackFlags (b12 b13 : Byte) : Flags where
  ns := b12.getLsbD 0
  fin := b13.getLsbD 0
  syn := b13.getLsbD 1
  rst := b13.getLsbD 2
  psh := b13.getLsbD 3
  ack := b13.getLsbD 4
  urg := b13.getLsbD 5
  ece := b13.getLsbD 6
  cwr := b13.getLsbD 7

/-- Byte 12 bits 7:4 (R52). -/
def nibbleOf (b12 : Byte) : BitVec 4 := b12.extractLsb' 4 4

/-- Byte 12 bits 3:1, which no header field receives (R60). -/
def unassignedOf (b12 : Byte) : BitVec 3 := b12.extractLsb' 1 3

end Sys2Proof.Machine
end

