-- ==== Sys2Proof/WellFormed.lean ====
section
/-! DEFINITION. Which instructions are records the wire can carry (spec/30_encoding.md R58, R60). A record
that is not well formed still has a meaning: MalformedOption (spec/41_decode.md R89). -/

namespace Sys2Proof

/-- A TLV record counts its kind and length bytes in its encoded length, so that is at least 2, and the
value is the rest (R58). -/
def tlvWf (len : Byte) (value : List Byte) : Bool :=
  decide (2 ≤ len.toNat) && decide (value.length = len.toNat - 2)

/-- The well-formed instructions. Operations, the fixed prefix, EOL and NOP have no ill-formed terms:
every value of their operands is an encoding (R51, R62, R65). -/
def Instr.wf : Instr → Bool
  | .decode => true
  | .construct => true
  | .encode => true
  | .checksum => true
  | .hdr20 _ => true
  | .optEol => true
  | .optNop => true
  | .optTlvK02 _ len value => tlvWf len value
  | .optTlvK04 _ len value => tlvWf len value
  | .optTlvK08 _ len value => tlvWf len value
  | .optTlvK10 _ len value => tlvWf len value
  | .optTlvK20 _ len value => tlvWf len value
  | .optTlvK40 _ len value => tlvWf len value
  | .optTlvK80 _ len value => tlvWf len value

end Sys2Proof
end

