-- ==== Sys2Proof/Decode.lean ====
section
/-! DEFINITION. Bytes to instructions and back (spec/30_encoding.md R50 to R62, R65). Three formats, told
apart by where the block reads (R59, R62), never by a bit. -/

namespace Sys2Proof

open Sys2Proof.Machine

/-! ### Decoding -/

/-- The operation a 2-bit select names; all four codes are assigned (R62). -/
def decodeOp (op : BitVec 2) : Instr :=
  match op with
  | 0#2 => .decode
  | 1#2 => .construct
  | 2#2 => .encode
  | 3#2 => .checksum

/-- The fixed prefix made of 20 bytes in address order (R51). -/
def decodeFixedPrefix : List Byte → Except Reject (FixedPrefix × List Byte)
  | b0 :: b1 :: b2 :: b3 :: b4 :: b5 :: b6 :: b7 :: b8 :: b9 :: b10 :: b11 :: b12 :: b13 :: b14 ::
      b15 :: b16 :: b17 :: b18 :: b19 :: rest =>
    .ok ({ sourcePort := join2 b0 b1
           destPort := join2 b2 b3
           sequenceNumber := join4 b4 b5 b6 b7
           acknowledgmentNumber := join4 b8 b9 b10 b11
           lengthNibble := nibbleOf b12
           unassigned := unassignedOf b12
           flags := unpackFlags b12 b13
           window := join2 b14 b15
           checksum := join2 b16 b17
           urgentPointer := join2 b18 b19 }, rest)
  | _ => .error .prefixTooShort

/-- The TLV row whose pattern a kind byte matches: the row of its highest set bit (R58). -/
def tlvOfKind (k len : Byte) (value : List Byte) : Instr :=
  if k.getLsbD 7 then .optTlvK80 (k.extractLsb' 0 7) len value
  else if k.getLsbD 6 then .optTlvK40 (k.extractLsb' 0 6) len value
  else if k.getLsbD 5 then .optTlvK20 (k.extractLsb' 0 5) len value
  else if k.getLsbD 4 then .optTlvK10 (k.extractLsb' 0 4) len value
  else if k.getLsbD 3 then .optTlvK08 (k.extractLsb' 0 3) len value
  else if k.getLsbD 2 then .optTlvK04 (k.extractLsb' 0 2) len value
  else .optTlvK02 (k.extractLsb' 0 1) len value

/-- The option record at the front of the bytes (R59). Where the length byte lies outside the bytes,
`len` is 0, which R89 never looks at (DESIGN CHOICE, log 11). -/
def decodeRecord : List Byte → Except Reject (Instr × List Byte)
  | [] => .error .noBytes
  | k :: rest =>
    if k = Config.kindEol then .ok (.optEol, rest)
    else if k = Config.kindNop then .ok (.optNop, rest)
    else
      match rest with
      | [] => .ok (tlvOfKind k 0 [], [])
      | len :: rest' => .ok (tlvOfKind k len (rest'.take (len.toNat - 2)), rest'.drop (len.toNat - 2))

/-- The instruction at the front of the bytes, and what follows it. An operation select is laid out as
one byte with its upper six bits 0. -/
def decode (f : Format) (bs : List Byte) : Except Reject (Instr × List Byte) :=
  match f with
  | .op =>
    match bs with
    | [] => .error .noBytes
    | b :: rest =>
      if b.extractLsb' 2 6 = 0 then .ok (decodeOp (b.extractLsb' 0 2), rest) else .error .selectTooWide
  | .header =>
    match decodeFixedPrefix bs with
    | .ok (p, rest) => .ok (.hdr20 p, rest)
    | .error r => .error r
  | .option => decodeRecord bs

/-! ### Encoding -/

/-- The format an instruction is read in. -/
def Instr.format : Instr → Format
  | .decode => .op
  | .construct => .op
  | .encode => .op
  | .checksum => .op
  | .hdr20 _ => .header
  | .optEol => .option
  | .optNop => .option
  | .optTlvK02 _ _ _ => .option
  | .optTlvK04 _ _ _ => .option
  | .optTlvK08 _ _ _ => .option
  | .optTlvK10 _ _ _ => .option
  | .optTlvK20 _ _ _ => .option
  | .optTlvK40 _ _ _ => .option
  | .optTlvK80 _ _ _ => .option

/-- The 20 bytes of a fixed prefix, in address order (R51). -/
def prefixBytes (p : FixedPrefix) : List Byte :=
  split2 p.sourcePort ++ split2 p.destPort ++ split4 p.sequenceNumber ++
    split4 p.acknowledgmentNumber ++
    [byte12 p.lengthNibble p.unassigned p.flags.ns, flagsByte p.flags] ++
    split2 p.window ++ split2 p.checksum ++ split2 p.urgentPointer

/-- The bytes of a TLV record (R58). -/
def tlvBytes (k len : Byte) (value : List Byte) : List Byte := k :: len :: value

/-- Kinds 0x02 and 0x03 (row OPT_TLV_k02: match 0x02, mask 0xFE). -/
def kindK02 (lo : BitVec 1) : Byte := 0b0000001#7 ++ lo

/-- Kinds 0x04 to 0x07 (row OPT_TLV_k04: match 0x04, mask 0xFC). -/
def kindK04 (lo : BitVec 2) : Byte := 0b000001#6 ++ lo

/-- Kinds 0x08 to 0x0F (row OPT_TLV_k08: match 0x08, mask 0xF8). -/
def kindK08 (lo : BitVec 3) : Byte := 0b00001#5 ++ lo

/-- Kinds 0x10 to 0x1F (row OPT_TLV_k10: match 0x10, mask 0xF0). -/
def kindK10 (lo : BitVec 4) : Byte := 0b0001#4 ++ lo

/-- Kinds 0x20 to 0x3F (row OPT_TLV_k20: match 0x20, mask 0xE0). -/
def kindK20 (lo : BitVec 5) : Byte := 0b001#3 ++ lo

/-- Kinds 0x40 to 0x7F (row OPT_TLV_k40: match 0x40, mask 0xC0). -/
def kindK40 (lo : BitVec 6) : Byte := 0b01#2 ++ lo

/-- Kinds 0x80 to 0xFF (row OPT_TLV_k80: match 0x80, mask 0x80). -/
def kindK80 (lo : BitVec 7) : Byte := 0b1#1 ++ lo

/-- The bytes of an instruction, from the same tables (R51, R56, R57, R58, R62). -/
def encode : Instr → List Byte
  | .decode => [0x00]
  | .construct => [0x01]
  | .encode => [0x02]
  | .checksum => [0x03]
  | .hdr20 p => prefixBytes p
  | .optEol => [Config.kindEol]
  | .optNop => [Config.kindNop]
  | .optTlvK02 lo len value => tlvBytes (kindK02 lo) len value
  | .optTlvK04 lo len value => tlvBytes (kindK04 lo) len value
  | .optTlvK08 lo len value => tlvBytes (kindK08 lo) len value
  | .optTlvK10 lo len value => tlvBytes (kindK10 lo) len value
  | .optTlvK20 lo len value => tlvBytes (kindK20 lo) len value
  | .optTlvK40 lo len value => tlvBytes (kindK40 lo) len value
  | .optTlvK80 lo len value => tlvBytes (kindK80 lo) len value

/-- How many bytes an instruction takes (R51, R59). -/
def Instr.size : Instr → Nat
  | .decode => 1
  | .construct => 1
  | .encode => 1
  | .checksum => 1
  | .hdr20 _ => 20
  | .optEol => 1
  | .optNop => 1
  | .optTlvK02 _ len _ => len.toNat
  | .optTlvK04 _ len _ => len.toNat
  | .optTlvK08 _ len _ => len.toNat
  | .optTlvK10 _ len _ => len.toNat
  | .optTlvK20 _ len _ => len.toNat
  | .optTlvK40 _ len _ => len.toNat
  | .optTlvK80 _ len _ => len.toNat

/-- The (match, mask) pair of an option row of spec/opcode_table.json, on the record's first byte. -/
def Instr.kindRow : Instr → Option (Byte × Byte)
  | .decode => none
  | .construct => none
  | .encode => none
  | .checksum => none
  | .hdr20 _ => none
  | .optEol => some (0x00, 0xFF)
  | .optNop => some (0x01, 0xFF)
  | .optTlvK02 _ _ _ => some (0x02, 0xFE)
  | .optTlvK04 _ _ _ => some (0x04, 0xFC)
  | .optTlvK08 _ _ _ => some (0x08, 0xF8)
  | .optTlvK10 _ _ _ => some (0x10, 0xF0)
  | .optTlvK20 _ _ _ => some (0x20, 0xE0)
  | .optTlvK40 _ _ _ => some (0x40, 0xC0)
  | .optTlvK80 _ _ _ => some (0x80, 0x80)

/-- The nine option rows of spec/opcode_table.json as (match, mask) pairs. -/
def optionRows : List (Byte × Byte) :=
  [(0x00, 0xFF), (0x01, 0xFF), (0x02, 0xFE), (0x04, 0xFC), (0x08, 0xF8), (0x10, 0xF0), (0x20, 0xE0),
    (0x40, 0xC0), (0x80, 0x80)]

/-! ### Words of the opcode table -/

/-- The first `n` bytes of a number, least significant first. -/
def lowBytes : Nat → Nat → List Byte
  | 0, _ => []
  | n + 1, w => BitVec.ofNat 8 w :: lowBytes n (w / 256)

/-- The format of a word of the opcode table. The table gives an operation select 2 bits, an option
record its kind byte, the prefix 160 bits. A one-byte word below 4 is both a select and a kind: it is
read as the select, which is what an idle block takes (DESIGN CHOICE, log 2). -/
def tableFormat (nbits w : Nat) : Format :=
  if nbits ≤ 8 ∧ w < 4 then .op else if nbits = 160 then .header else .option

/-- The bytes of a word of the opcode table in address order. The table numbers the prefix's bits from
the most significant end, header byte 0 being bits 159:152. Above them stand zeros: 40 are as many as
an options region can hold. -/
def tableBytes (nbits w : Nat) : List Byte :=
  match tableFormat nbits w with
  | .op => lowBytes 1 w
  | .header => (lowBytes 20 w).reverse ++ List.replicate 40 0
  | .option => lowBytes ((nbits + 7) / 8) w ++ List.replicate 40 0

/-- The instruction the decoder reads from a word of the opcode table. -/
def decodeTableWord (nbits w : Nat) : Option Instr :=
  match decode (tableFormat nbits w) (tableBytes nbits w) with
  | .ok (i, _) => some i
  | .error _ => none

end Sys2Proof
end

