-- ==== Sys2Proof/Machine/Operands.lean ====
section
/-! DEFINITION. The operands of the operations: the bytes available from an offset, the destination, a
Header as a fixed prefix and back, an entry as a record (spec/20_memory.md R31, R36, R37;
spec/30_encoding.md R51, R52; spec/42_encode.md R102, R110). -/

namespace Sys2Proof.Machine

/-- `len(B) - offset`, an exact integer, negative when `offset` lies beyond the buffer (R31, R81). -/
def avail (m : Memory) (offset : Nat) : Int := (m.len : Int) - (offset : Int)

/-- One past the options region: `max(20, headerLength)` (R85). -/
def regionEndOf (headerLength : Nat) : Nat := max Config.fixedLen headerLength

/-- The Header fields a fixed prefix gives, the options still to come (R82, R83). -/
def headerOfPrefix (p : FixedPrefix) : Header where
  sourcePort := p.sourcePort
  destPort := p.destPort
  sequenceNumber := p.sequenceNumber
  acknowledgmentNumber := p.acknowledgmentNumber
  flags := p.flags
  window := p.window
  checksum := p.checksum
  urgentPointer := p.urgentPointer
  headerLength := nibbleLength p.lengthNibble
  options := []

/-- The fixed prefix ENCODE writes for a Header: bits 3:1 of byte 12 are 0 (R104, R105). -/
def prefixOfHeader (h : Header) : FixedPrefix where
  sourcePort := h.sourcePort
  destPort := h.destPort
  sequenceNumber := h.sequenceNumber
  acknowledgmentNumber := h.acknowledgmentNumber
  lengthNibble := lengthNibble h.headerLength
  unassigned := 0
  flags := h.flags
  window := h.window
  checksum := h.checksum
  urgentPointer := h.urgentPointer

/-- The length byte of a TLV record for a value: `2 + len(value)` (R110). -/
def tlvLenByte (value : List Byte) : Byte := BitVec.ofNat 8 (2 + value.length)

/-- The bytes ENCODE writes for an entry: kind 1 is one byte and its value is not written (R109); any
other kind, 0 included, is kind, length byte, value (R110). -/
def entryBytes (o : Entry) : List Byte :=
  if o.kind = Config.kindNop then [Config.kindNop] else tlvBytes o.kind (tlvLenByte o.value) o.value

/-- The record ENCODE emits for an entry, as an instruction. A kind-0 entry is written as a TLV record
that no row of the opcode table describes (R74, R110; log 12). -/
def entryInstr (o : Entry) : Option Instr :=
  if o.kind = Config.kindEol then none
  else if o.kind = Config.kindNop then some .optNop
  else some (tlvOfKind o.kind (tlvLenByte o.value) o.value)

/-- Where ENCODE writes: a fresh buffer of `headerLength` zero bytes from address 0, whatever `offset`
is, or the caller's DST from `offset` on (R37, R102). -/
def destination (h : Header) (bufPresent : Bool) (dst : Memory) (offset : Nat) : Memory × Nat :=
  if bufPresent then (dst, offset) else (Memory.zeros h.headerLength, 0)

end Sys2Proof.Machine
end

