-- ==== Sys2Proof/Machine/Construct.lean ====
section
/-! DEFINITION. CONSTRUCT, and the length functions and the predicate it shares with ENCODE
(spec/40_construct.md). -/

namespace Sys2Proof.Machine

/-- The number of bytes ENCODE writes for an entry (R70). -/
def optWireLen (o : Entry) : Nat := if o.kind = Config.kindNop then 1 else 2 + o.value.length

/-- The bytes of the entries alone, without a sentinel (R70). -/
def entriesWireLen : List Entry → Nat
  | [] => 0
  | o :: os => optWireLen o + entriesWireLen os

/-- The bytes of an options list, with the sentinel a non-empty list ends in (R70). -/
def optionsWireLen (os : List Entry) : Nat := if os = [] then 0 else entriesWireLen os + 1

/-- The header length an options list calls for (R70, which corrects the source's printed formula:
spec/90_conflicts.md C1). -/
def computedLength (os : List Entry) : Nat := Config.fixedLen + optionsWireLen os

/-- The validity predicate (R71). -/
abbrev Valid (h : Header) : Prop :=
  Config.fixedLen ≤ h.headerLength ∧
  h.headerLength = computedLength h.options ∧
  h.headerLength % Config.lenUnit = 0 ∧
  h.headerLength ≤ Config.maxHlen

/-- CONSTRUCT (R72). -/
def constructHeader (f : Header) : Op Header :=
  if f.headerLength < Config.fixedLen then raising .invalidHeaderLength
  else if f.headerLength ≠ computedLength f.options then raising .invalidHeaderLength
  else if f.headerLength % Config.lenUnit ≠ 0 ∨ f.headerLength > Config.maxHlen then
    raising .invalidHeaderLength
  else .ok f

/-- CONSTRUCT (R72): `F` comes back as a Header, or InvalidHeaderLength. No buffer is touched. -/
def execConstruct (s : State) : Host.Outcome State Fault Refusal :=
  endWith (constructHeader s.fields) State.endHeader s

end Sys2Proof.Machine
end

