-- ==== Sys2Proof/Machine/DecodeOp.lean ====
section
/-! DEFINITION. DECODE: bytes to Header, in one transaction (spec/41_decode.md R80 to R92). -/

namespace Sys2Proof.Machine

/-- The three tests a TLV record must pass, and its effect (R89). `pos` is the header offset of the kind
byte; `len` is the length byte; the sum is exact (R64). -/
def checkTlv (pos regionEnd len : Nat) : Op Unit :=
  if len < 2 then raising .malformedOption
  else if pos + len > regionEnd then raising .malformedOption
  else .ok ()

/-- One turn of the option loop: the record whose kind byte is at header offset `pos` (R86 to R89). -/
def readRecord (src : Memory) (offset pos regionEnd : Nat) : Op RecordStep := do
  let k ← src.read8 (offset + pos)
  if k = Config.kindEol then return .stop
  else if k = Config.kindNop then return .append ⟨Config.kindNop, []⟩ 1
  else if pos + 1 ≥ regionEnd then raising .malformedOption
  else
    let len ← src.read8 (offset + pos + 1)
    checkTlv pos regionEnd len.toNat
    let value ← src.readBytes (offset + pos + 2) (len.toNat - 2)
    return .append ⟨k, value⟩ len.toNat

/-- The option loop (R86): `while pos < end`. Each turn that goes on raises `pos` by at least 1, so
`regionEnd - pos` turns are enough (R93); with no turn left `pos` has reached the end (R90). -/
def decodeLoop (src : Memory) (offset regionEnd : Nat) : Nat → Nat → List Entry → Op (List Entry)
  | 0, _, opts => .ok opts
  | turns + 1, pos, opts =>
    if pos < regionEnd then do
      match ← readRecord src offset pos regionEnd with
      | .stop => return opts
      | .append o size => decodeLoop src offset regionEnd turns (pos + size) (opts ++ [o])
    else .ok opts

/-- DECODE in full (R92). -/
def decodeHeader (src : Memory) (offset : Nat) : Op Header :=
  if avail src offset < Config.fixedLen then raising .bufferTooShort
  else do
    let sourcePort ← src.read16 (offset + 0)
    let destPort ← src.read16 (offset + 2)
    let sequenceNumber ← src.read32 (offset + 4)
    let acknowledgmentNumber ← src.read32 (offset + 8)
    let b12 ← src.read8 (offset + 12)
    let b13 ← src.read8 (offset + 13)
    let window ← src.read16 (offset + 14)
    let checksum ← src.read16 (offset + 16)
    let urgentPointer ← src.read16 (offset + 18)
    let headerLength := nibbleLength (nibbleOf b12)
    if headerLength > Config.fixedLen ∧ avail src offset < headerLength then raising .bufferTooShort
    else
      let regionEnd := regionEndOf headerLength
      let options ← decodeLoop src offset regionEnd (regionEnd - Config.fixedLen) Config.fixedLen []
      return { sourcePort, destPort, sequenceNumber, acknowledgmentNumber,
               flags := unpackFlags b12 b13, window, checksum, urgentPointer, headerLength, options }

/-- DECODE (R80): reads SRC only; OK with a Header, or BufferTooShort, or MalformedOption. -/
def execDecode (s : State) : Host.Outcome State Fault Refusal :=
  endWith (decodeHeader s.src s.offset) State.endHeader s

end Sys2Proof.Machine
end

