-- ==== Sys2Proof/Machine/EncodeOp.lean ====
section
/-! DEFINITION. ENCODE: Header to bytes, in one transaction (spec/42_encode.md R100 to R112). -/

namespace Sys2Proof.Machine

/-- Write the entries in order from header offset `pos` on; answers the cursor after them (R108). -/
def emitEntries (start : Nat) : Memory → Nat → List Entry → Op (Memory × Nat)
  | out, pos, [] => .ok (out, pos)
  | out, pos, o :: os => do
    let out' ← out.writeBytes (start + pos) (entryBytes o)
    emitEntries start out' (pos + (entryBytes o).length) os

/-- The two checks ENCODE makes before it writes (R101, R103), and the destination (R102). -/
def encodeStart (h : Header) (bufPresent : Bool) (dst : Memory) (offset : Nat) : Op (Memory × Nat) :=
  if ¬ Valid h then raising .invalidHeaderLength
  else if bufPresent = true ∧ dst.len < offset + h.headerLength then raising .bufferTooShort
  else .ok (destination h bufPresent dst offset)

/-- ENCODE in full (R112). -/
def encodeHeader (h : Header) (bufPresent : Bool) (dst : Memory) (offset : Nat) : Op Memory := do
  let (out, start) ← encodeStart h bufPresent dst offset
  let out ← out.writeBytes start (prefixBytes (prefixOfHeader h))
  let (out, pos) ← emitEntries start out Config.fixedLen h.options
  if h.options = [] then return out
  else out.writeBytes (start + pos) [Config.kindEol]

/-- ENCODE (R100): writes DST only; OK with the destination bytes, or InvalidHeaderLength, or
BufferTooShort. -/
def execEncode (s : State) : Host.Outcome State Fault Refusal :=
  endWith (encodeHeader s.header s.bufPresent s.dst s.offset) State.endBytes s

end Sys2Proof.Machine
end

