-- ==== Sys2Proof/Machine/Records.lean ====
section
/-! DEFINITION. The fixed prefix and the option records as instructions: what each does inside a DECODE
or an ENCODE that runs record by record (spec/41_decode.md R82 to R91; spec/42_encode.md R104 to R111).
Outside such an operation they are refused by name (spec/00_scope.md R7; log 13). -/

namespace Sys2Proof.Machine

/-! ### Inside DECODE -/

/-- The option loop is over: DECODE ends with the Header and the finished list (R86, R92). -/
def State.finishDecode (d : DecodeLocal) (s : State) : State :=
  s.endHeader { d.header with options := d.opts }

/-- Go on with the option loop while `pos < end`, else end the DECODE (R86, R90). -/
def State.loopDecode (d : DecodeLocal) (s : State) : State :=
  if d.pos < d.regionEnd then s.setPhase (.decodeOptions d) else s.finishDecode d

/-- Append an entry and advance the cursor by the record's size (R88, R89). -/
def State.appendEntry (d : DecodeLocal) (o : Entry) (size : Nat) (s : State) : State :=
  s.loopDecode { d with pos := d.pos + size, opts := d.opts ++ [o] }

/-- The fixed prefix in DECODE: the fields, the header length, the second bounds check, the empty
options region (R82 to R85). -/
def decodePrefixStep (p : FixedPrefix) (s : State) : Host.Outcome State Fault Refusal :=
  let h := headerOfPrefix p
  if h.headerLength > Config.fixedLen ∧ avail s.src s.offset < h.headerLength then
    .next (s.raise .bufferTooShort)
  else
    .next (s.loopDecode
      { header := h, pos := Config.fixedLen, regionEnd := regionEndOf h.headerLength, opts := [] })

/-- A TLV record in DECODE (R89). -/
def decodeTlvStep (k len : Byte) (value : List Byte) (d : DecodeLocal) (s : State) :
    Host.Outcome State Fault Refusal :=
  if d.pos + 1 ≥ d.regionEnd then .next (s.raise .malformedOption)
  else endWith (checkTlv d.pos d.regionEnd len.toNat)
    (fun _ => State.appendEntry d ⟨k, value⟩ len.toNat) s

/-! ### Inside ENCODE -/

/-- Write the bytes of one record at the cursor; answers the local state after it (R108). -/
def emit (bytes : List Byte) (e : EncodeLocal) : Op EncodeLocal := do
  let out ← e.out.writeBytes (e.start + e.pos) bytes
  return { e with out := out, pos := e.pos + bytes.length }

/-- The record of the next entry has been written (R108). -/
def State.nextEntry (e : EncodeLocal) (s : State) : State :=
  s.setPhase (.encodeOptions { e with pending := e.pending.tail })

/-- The fixed prefix has been written: ENCODE ends here when there are no options (R104, R111). -/
def State.prefixWritten (e : EncodeLocal) (s : State) : State :=
  if e.pending = [] then s.endBytes e.out else s.setPhase (.encodeOptions e)

/-- The sentinel has been written: it is the last byte, and ENCODE ends (R111). -/
def State.sentinelWritten (e : EncodeLocal) (s : State) : State := s.endBytes e.out

/-- A kind-0 entry in ENCODE, written as a TLV record (R74, R110). No row of the opcode table is such a
record (log 12). -/
def emitKindZero (o : Entry) (e : EncodeLocal) (s : State) : Host.Outcome State Fault Refusal :=
  endWith (emit (entryBytes o) e) State.nextEntry s

/-! ### The meanings -/

/-- HDR20: read inside DECODE (R82 to R85), written inside ENCODE (R104). -/
def execHdr20 (p : FixedPrefix) (s : State) : Host.Outcome State Fault Refusal :=
  match s.phase with
  | .decodePrefix => decodePrefixStep p s
  | .encodePrefix e => endWith (emit (prefixBytes p) e) State.prefixWritten s
  | .idle => .refused .outOfPlace
  | .decodeOptions _ => .refused .outOfPlace
  | .encodeOptions _ => .refused .outOfPlace

/-- OPT_EOL: ends the list in DECODE, nothing is appended (R87); the sentinel in ENCODE (R111). -/
def execOptEol (s : State) : Host.Outcome State Fault Refusal :=
  match s.phase with
  | .decodeOptions d => .next (s.finishDecode d)
  | .encodeOptions e => endWith (emit [Config.kindEol] e) State.sentinelWritten s
  | .idle => .refused .outOfPlace
  | .decodePrefix => .refused .outOfPlace
  | .encodePrefix _ => .refused .outOfPlace

/-- OPT_NOP: appends an entry of kind 1 with an empty value in DECODE (R88); one byte in ENCODE (R109). -/
def execOptNop (s : State) : Host.Outcome State Fault Refusal :=
  match s.phase with
  | .decodeOptions d => .next (s.appendEntry d ⟨Config.kindNop, []⟩ 1)
  | .encodeOptions e => endWith (emit [Config.kindNop] e) State.nextEntry s
  | .idle => .refused .outOfPlace
  | .decodePrefix => .refused .outOfPlace
  | .encodePrefix _ => .refused .outOfPlace

/-- The TLV record form: R89 in DECODE, R110 in ENCODE. -/
def execTlv (k len : Byte) (value : List Byte) (s : State) : Host.Outcome State Fault Refusal :=
  match s.phase with
  | .decodeOptions d => decodeTlvStep k len value d s
  | .encodeOptions e => endWith (emit (tlvBytes k len value) e) State.nextEntry s
  | .idle => .refused .outOfPlace
  | .decodePrefix => .refused .outOfPlace
  | .encodePrefix _ => .refused .outOfPlace

/-- OPT_TLV_k02 (R89, R110). -/
def execOptTlvK02 (lo : BitVec 1) (len : Byte) (value : List Byte) (s : State) :
    Host.Outcome State Fault Refusal := execTlv (kindK02 lo) len value s

/-- OPT_TLV_k04 (R89, R110). -/
def execOptTlvK04 (lo : BitVec 2) (len : Byte) (value : List Byte) (s : State) :
    Host.Outcome State Fault Refusal := execTlv (kindK04 lo) len value s

/-- OPT_TLV_k08 (R89, R110). -/
def execOptTlvK08 (lo : BitVec 3) (len : Byte) (value : List Byte) (s : State) :
    Host.Outcome State Fault Refusal := execTlv (kindK08 lo) len value s

/-- OPT_TLV_k10 (R89, R110). -/
def execOptTlvK10 (lo : BitVec 4) (len : Byte) (value : List Byte) (s : State) :
    Host.Outcome State Fault Refusal := execTlv (kindK10 lo) len value s

/-- OPT_TLV_k20 (R89, R110). -/
def execOptTlvK20 (lo : BitVec 5) (len : Byte) (value : List Byte) (s : State) :
    Host.Outcome State Fault Refusal := execTlv (kindK20 lo) len value s

/-- OPT_TLV_k40 (R89, R110). -/
def execOptTlvK40 (lo : BitVec 6) (len : Byte) (value : List Byte) (s : State) :
    Host.Outcome State Fault Refusal := execTlv (kindK40 lo) len value s

/-- OPT_TLV_k80 (R89, R110). -/
def execOptTlvK80 (lo : BitVec 7) (len : Byte) (value : List Byte) (s : State) :
    Host.Outcome State Fault Refusal := execTlv (kindK80 lo) len value s

end Sys2Proof.Machine
end

