-- ==== Sys2Proof/Machine/Dispatch.lean ====
section
/-! DEFINITION. One arm per instruction. -/

namespace Sys2Proof.Machine

def exec (i : Instr) (s : State) : Host.Outcome State Fault Refusal :=
  match i with
  | .decode => Sys2Proof.Machine.execDecode s
  | .construct => Sys2Proof.Machine.execConstruct s
  | .encode => Sys2Proof.Machine.execEncode s
  | .checksum => Sys2Proof.Machine.execChecksum s
  | .hdr20 p => Sys2Proof.Machine.execHdr20 p s
  | .optEol => Sys2Proof.Machine.execOptEol s
  | .optNop => Sys2Proof.Machine.execOptNop s
  | .optTlvK02 lo len value => Sys2Proof.Machine.execOptTlvK02 lo len value s
  | .optTlvK04 lo len value => Sys2Proof.Machine.execOptTlvK04 lo len value s
  | .optTlvK08 lo len value => Sys2Proof.Machine.execOptTlvK08 lo len value s
  | .optTlvK10 lo len value => Sys2Proof.Machine.execOptTlvK10 lo len value s
  | .optTlvK20 lo len value => Sys2Proof.Machine.execOptTlvK20 lo len value s
  | .optTlvK40 lo len value => Sys2Proof.Machine.execOptTlvK40 lo len value s
  | .optTlvK80 lo len value => Sys2Proof.Machine.execOptTlvK80 lo len value s

end Sys2Proof.Machine
end

