-- ==== Sys2Proof/Machine/Fetch.lean ====
section
/-! DEFINITION. What the machine does next: the host's actions, the start of an operation, the fetch of a
record, reset (spec/10_state.md R16, R18; spec/20_memory.md R40, R43, R45; spec/41_decode.md R81, R86;
spec/42_encode.md R101 to R103, R108; spec/70_reset_and_hazards.md R150). -/

namespace Sys2Proof.Machine

/-! ### Reset -/

/-- Each byte the new one or the old one, as the free value says (R150; log 9). -/
def mixBytes (takeNew : Nat → Bool) : Nat → List Byte → List Byte → List Byte
  | k, old :: olds, new :: news => (if takeNew k then new else old) :: mixBytes takeNew (k + 1) olds news
  | _, [], _ => []
  | _, _ :: _, [] => []

/-- DST after a reset has abandoned an ENCODE into it: in the target range any mixture of old and new
bytes, outside it unchanged (R150). -/
def abandonedDst (s : State) : Op Memory := do
  let new ← encodeHeader s.header true s.dst s.offset
  let olds ← s.dst.readBytes s.offset s.header.headerLength
  let news ← new.readBytes s.offset s.header.headerLength
  s.dst.writeBytes s.offset (mixBytes (Config.resetMix s.freeIndex) 0 olds news)

/-- Reset of the block (R150): idle, status and results invalid. The operand ports and the buffers are
the host's and keep their values, and so does the host's script. -/
def State.clear (s : State) : State :=
  { s with status := none, resultHeader := none, resultBytes := none, phase := .idle, resetIn := none }

/-- Is an ENCODE into the host's buffer under way? -/
def writingDst (s : State) : Bool :=
  match s.phase with
  | .idle => false
  | .decodePrefix => false
  | .decodeOptions _ => false
  | .encodePrefix _ => s.bufPresent
  | .encodeOptions _ => s.bufPresent

/-- The reset event (R150). An ENCODE under way has passed its checks, so its target range is there. -/
def applyReset (s : State) : State :=
  if writingDst s then
    match abandonedDst s with
    | .ok m => { s.clear with dst := m, freeIndex := s.freeIndex + 1 }
    | .error _ => s.clear
  else s.clear

/-! ### Starting an operation that runs record by record -/

/-- DECODE up to its first bounds check (R81). -/
def startDecode (s : State) : Host.Outcome State Fault Refusal :=
  if avail s.src s.offset < Config.fixedLen then .next (s.raise .bufferTooShort)
  else .next (s.setPhase .decodePrefix)

/-- The local state of an ENCODE that has chosen its destination. -/
def State.beginEncode (p : Memory × Nat) (s : State) : State :=
  s.setPhase (.encodePrefix { out := p.1, start := p.2, pos := 0, pending := s.header.options })

/-- ENCODE up to its destination (R101 to R103). -/
def startEncode (s : State) : Host.Outcome State Fault Refusal :=
  endWith (encodeStart s.header s.bufPresent s.dst s.offset) State.beginEncode s

/-- Start an operation record by record. CONSTRUCT and CHECKSUM handle no record: they run whole. -/
def startWalk (i : Instr) (s : State) : Fetched :=
  if i = .decode then .other (startDecode s)
  else if i = .encode then .other (startEncode s)
  else .run i s

/-! ### The host's actions -/

/-- Hand over a result (R18). While it is invalid its contents are unspecified (R150): a free value
(log 19). -/
def withResult {α : Type} (r : Option α) (invalid : Nat → α) (use : α → State → State) (s : State) :
    Host.Outcome State Fault Refusal :=
  match r with
  | some x => .next (use x s)
  | none => .next (use (invalid s.freeIndex) { s with freeIndex := s.freeIndex + 1 })

/-- The result bytes at the result port while they are invalid (log 19). -/
def invalidBuffer (n : Nat) : Memory := Memory.ofBytes (Config.invalidBytes n)

/-- The collaborator's two bytes (R45, R122). It changes DST alone: SRC and the result bytes are buffers of
their own (DESIGN CHOICE, log 20). -/
def collaborate (b16 b17 : Byte) (s : State) : Host.Outcome State Fault Refusal :=
  endWith (s.dst.writeBytes (s.offset + 16) [b16, b17]) (fun m s => { s with dst := m }) s

/-- One action of the host (R18, R40). A hand-over passes a copy: SRC, DST and the result bytes never share
their bytes (DESIGN CHOICE, log 20). -/
def hostAction (e : HostEvent) (s : State) : Fetched :=
  match e with
  | .setSrc bytes => .other (.next { s with src := Memory.ofBytes bytes })
  | .setDst bytes => .other (.next { s with dst := Memory.ofBytes bytes })
  | .setOffset n => .other (.next { s with offset := n })
  | .setFields h => .other (.next { s with fields := h })
  | .setHeader h => .other (.next { s with header := h })
  | .setBufPresent b => .other (.next { s with bufPresent := b })
  | .setIpctx x => .other (.next { s with ipctx := x })
  | .srcFromDst => .other (.next { s with src := s.dst })
  | .srcFromResult =>
    .other (withResult s.resultBytes invalidBuffer (fun m s => { s with src := m }) s)
  | .dstFromResult =>
    .other (withResult s.resultBytes invalidBuffer (fun m s => { s with dst := m }) s)
  | .headerFromResult =>
    .other (withResult s.resultHeader Config.invalidHeader (fun h s => { s with header := h }) s)
  | .collaborator b16 b17 => .other (collaborate b16 b17 s)
  | .issue op => .run (decodeOp op) { s with op := op }
  | .walk op => startWalk (decodeOp op) { s with op := op }
  | .reset after => .other (.next { s with resetIn := some after })

/-! ### Fetching records -/

/-- Decode fetched bytes (R59). -/
def decoded (f : Format) (r : Op (List Byte)) (s : State) : Fetched :=
  match r with
  | .error x => .other (halted x s)
  | .ok bs =>
    match decode f bs with
    | .ok (i, _) => .run i s
    | .error why => .other (.refused (.notDecoded why))

/-- The next record of the options region: the bytes from the cursor to the end of the region hold it
(R59, R86). -/
def fetchRecord (d : DecodeLocal) (s : State) : Fetched :=
  if d.pos < d.regionEnd then
    decoded .option (s.src.readBytes (s.offset + d.pos) (d.regionEnd - d.pos)) s
  else .other (.next (s.finishDecode d))

/-- The record ENCODE emits next: the next entry's, or the sentinel (R108). -/
def emitRecord (e : EncodeLocal) (s : State) : Fetched :=
  match e.pending with
  | [] => .run .optEol s
  | o :: _ =>
    match entryInstr o with
    | some i => .run i s
    | none => .other (emitKindZero o e s)

/-- What the machine does next. While no operation is in progress the host acts, and with nothing left
to do it and the block stay as they are (log 14). -/
def fetch (s : State) : Fetched :=
  match s.phase with
  | .idle =>
    match s.host with
    | [] => .other (.next s)
    | e :: es => hostAction e { s with host := es }
  | .decodePrefix => decoded .header (s.src.readBytes s.offset Config.fixedLen) s
  | .decodeOptions d => fetchRecord d s
  | .encodePrefix _ => .run (.hdr20 (prefixOfHeader s.header)) s
  | .encodeOptions e => emitRecord e s

/-! ### Placing an instruction -/

/-- SRC for a placed record or prefix: the bytes from `at_` on, zeros before and after them, so that a
header of the greatest length fits from `offset` on. -/
def placedSrc (at_ : Nat) (bytes : List Byte) : Memory where
  len := at_ + bytes.length + Config.maxHlen
  cells := cellsFrom at_ bytes

/-- The option loop at its first record, in a region of the greatest size. -/
def placedLoop : DecodeLocal where
  header := { Header.zero with headerLength := Config.maxHlen }
  pos := Config.fixedLen
  regionEnd := Config.maxHlen
  opts := []

/-- Set the machine so that the very next step runs the instruction these bytes hold (log 2, log 3). -/
def placeInstr (f : Format) (bytes : List Byte) (s : State) : State :=
  match f with
  | .op =>
    { s with phase := .idle, resetIn := none,
             host := .issue (BitVec.truncate 2 (bytes.headD 0)) :: s.host }
  | .header =>
    { s with phase := .decodePrefix, resetIn := none, src := placedSrc s.offset bytes }
  | .option =>
    { s with phase := .decodeOptions placedLoop, resetIn := none,
             src := placedSrc (s.offset + Config.fixedLen) bytes }

end Sys2Proof.Machine
end

