-- ==== Sys2Proof/Machine/Step.lean ====
section
/-! DEFINITION. One step of the machine. -/

namespace Sys2Proof.Machine

/-- Run what the machine does next. -/
def advance (s : State) : Host.Outcome State Fault Refusal :=
  match fetch s with
  | .run i s' => exec i s'
  | .other o => o

/-- One step: a scheduled reset whose time has come, else what the machine does next. -/
def step (s : State) : Host.Outcome State Fault Refusal :=
  match s.resetIn with
  | none => advance s
  | some 0 => .next (applyReset s)
  | some (n + 1) => advance { s with resetIn := some n }

/-- `s` set so that the next step runs exactly the instruction of a word of the opcode table: an
operation is issued by the host, a record or a prefix is put where a DECODE in progress reads next
(log 2, log 3). -/
def State.withFetchWord (s : State) (nbits w : Nat) : State :=
  placeInstr (tableFormat nbits w) (tableBytes nbits w) s

end Sys2Proof.Machine
end

