-- ==== Sys2Proof/Safety.lean ====
section
/-! DEFINITION. What claims are stated in: the invariant of the machine, the bytes a Header stands for on
the wire, and which Headers survive a round trip (spec/10_state.md R14, R16, R17; spec/40_construct.md
R74; spec/41_decode.md R93, R94; spec/42_encode.md R113). -/

namespace Sys2Proof.Machine

/-! ### Headers and their bytes -/

/-- The bytes of the entries in order, without a sentinel (R108). -/
def entriesWire : List Entry → List Byte
  | [] => []
  | o :: os => entryBytes o ++ entriesWire os

/-- The options region ENCODE writes: the entries, and one sentinel after a non-empty list (R111). -/
def optionsWire (os : List Entry) : List Byte :=
  if os = [] then [] else entriesWire os ++ [Config.kindEol]

/-- The bytes ENCODE writes for a Header (R112). -/
def headerWire (h : Header) : List Byte := prefixBytes (prefixOfHeader h) ++ optionsWire h.options

/-- An entry that DECODE can return: its kind is not 0, and a kind-1 entry has an empty value (R93). -/
abbrev DecodableEntry (o : Entry) : Prop :=
  o.kind ≠ Config.kindEol ∧ (o.kind = Config.kindNop → o.value = [])

/-- A Header that comes back from a round trip as it went in (R94). -/
abbrev RoundTrips (h : Header) : Prop := Valid h ∧ ∀ o ∈ h.options, DecodableEntry o

/-- What a round trip leaves of an options list: a kind-0 entry ends the list, a kind-1 entry loses its
value (R74). -/
def survivors : List Entry → List Entry
  | [] => []
  | o :: os =>
    if o.kind = Config.kindEol then []
    else if o.kind = Config.kindNop then ⟨Config.kindNop, []⟩ :: survivors os
    else o :: survivors os

/-- The TLV record of each row of the opcode table: the instruction, its kind and its operands (R58). -/
inductive IsTlv : Instr → Byte → Byte → List Byte → Prop
  | k02 (lo : BitVec 1) (len : Byte) (value : List Byte) :
      IsTlv (.optTlvK02 lo len value) (BitVec.ofNat 8 (0x02 + lo.toNat)) len value
  | k04 (lo : BitVec 2) (len : Byte) (value : List Byte) :
      IsTlv (.optTlvK04 lo len value) (BitVec.ofNat 8 (0x04 + lo.toNat)) len value
  | k08 (lo : BitVec 3) (len : Byte) (value : List Byte) :
      IsTlv (.optTlvK08 lo len value) (BitVec.ofNat 8 (0x08 + lo.toNat)) len value
  | k10 (lo : BitVec 4) (len : Byte) (value : List Byte) :
      IsTlv (.optTlvK10 lo len value) (BitVec.ofNat 8 (0x10 + lo.toNat)) len value
  | k20 (lo : BitVec 5) (len : Byte) (value : List Byte) :
      IsTlv (.optTlvK20 lo len value) (BitVec.ofNat 8 (0x20 + lo.toNat)) len value
  | k40 (lo : BitVec 6) (len : Byte) (value : List Byte) :
      IsTlv (.optTlvK40 lo len value) (BitVec.ofNat 8 (0x40 + lo.toNat)) len value
  | k80 (lo : BitVec 7) (len : Byte) (value : List Byte) :
      IsTlv (.optTlvK80 lo len value) (BitVec.ofNat 8 (0x80 + lo.toNat)) len value

/-- The four operations (R62). -/
abbrev IsOperation (i : Instr) : Prop := i = .decode ∨ i = .construct ∨ i = .encode ∨ i = .checksum

/-! ### The invariant -/

/-- A Header DECODE or CONSTRUCT can answer with: the length is 0, 4, ..., 60 (R21). -/
def ResultLengthOk (h : Header) : Prop := h.headerLength % 4 = 0 ∧ h.headerLength ≤ 60

/-- Inside the option loop of DECODE (R16, R93): `20 ≤ pos < end ≤ 60`, the header lies in SRC, and the
entries appended so far account for the bytes the cursor has passed. -/
def DecodeLocal.Inv (s : State) (d : DecodeLocal) : Prop :=
  20 ≤ d.pos ∧ d.pos < d.regionEnd ∧ d.regionEnd ≤ 60 ∧
  d.regionEnd = d.header.headerLength ∧ d.header.headerLength % 4 = 0 ∧
  s.offset + d.regionEnd ≤ s.src.len ∧
  20 + entriesWireLen d.opts = d.pos ∧ ∀ o ∈ d.opts, DecodableEntry o

/-- Inside ENCODE (R101 to R103): the Header is valid, the target range lies in the destination, and the
destination is the caller's buffer when there is one. -/
def EncodeLocal.Inv (s : State) (e : EncodeLocal) : Prop :=
  Valid s.header ∧ e.out.wf = true ∧ e.start + s.header.headerLength ≤ e.out.len ∧
  (s.bufPresent = true → e.start = s.offset ∧ e.out.len = s.dst.len)

/-- The operation-local state is that of an operation that has passed its checks. -/
def PhaseInv (s : State) : Prop :=
  match s.phase with
  | .idle => True
  | .decodePrefix => s.offset + 20 ≤ s.src.len
  | .decodeOptions d => d.Inv s
  | .encodePrefix e => e.Inv s ∧ e.pos = 0 ∧ e.pending = s.header.options
  | .encodeOptions e =>
    e.Inv s ∧ s.header.options ≠ [] ∧ e.pos + entriesWireLen e.pending + 1 = s.header.headerLength

/-- There is a result exactly when the status is OK, and then it is one result (R17, R18). -/
def OutputsInv (s : State) : Prop :=
  match s.status with
  | some .ok =>
    (∃ h, s.resultHeader = some h ∧ ResultLengthOk h ∧ s.resultBytes = none) ∨
    (∃ m, s.resultBytes = some m ∧ m.wf = true ∧ s.resultHeader = none)
  | some (.error _) => s.resultHeader = none ∧ s.resultBytes = none
  | none => s.resultHeader = none ∧ s.resultBytes = none

/-- The invariant of the machine: the buffers are in canonical form, the outputs agree with the status,
and the operation-local state is that of an operation that has passed its checks. -/
def State.Inv (s : State) : Prop :=
  s.src.wf = true ∧ s.dst.wf = true ∧ OutputsInv s ∧ PhaseInv s

end Sys2Proof.Machine
end

