-- ==== Sys2Proof/Certificates/Slice0/Obligations.lean ====
section
/-! DEFINITION. The statements for the provers. Each docstring names the rule of spec/ it formalises; where
a clause rests on a decision of the spec (92_eei_decisions.md) or on a choice of the model (a log entry), it
says so. -/

open Sys2Proof Sys2Proof.Machine

/-! ### Encoding -/

/-- 30_encoding.md sections 2 to 5: no bit of an encoding is dropped, in any format. -/
def Obligations.DecodeOfEncodeIsIdentity : Prop :=
  ∀ (i : Instr) (rest : List Byte), i.wf = true →
    decode i.format (encode i ++ rest) = .ok (i, rest)

/-- 30_encoding.md sections 2 to 5: bytes that decode to a well-formed instruction are the bytes it
encodes to, the three unassigned bits of byte 12 included. -/
def Obligations.EncodeOfDecodeIsIdentity : Prop :=
  ∀ (f : Format) (bs : List Byte) (i : Instr) (rest : List Byte),
    decode f bs = .ok (i, rest) → i.wf = true → i.format = f ∧ encode i ++ rest = bs

/-- R65: kind 0 is EOL, 1 is NOP, every other kind is TLV, no kind is illegal, and whether a TLV record is
well formed does not depend on its kind. -/
def Obligations.KindMapIsTotal : Prop :=
  (∀ (k : Byte) (rest : List Byte), ∃ i tl, decode .option (k :: rest) = .ok (i, tl) ∧
    (k = 0x00 → i = .optEol ∧ tl = rest) ∧ (k = 0x01 → i = .optNop ∧ tl = rest) ∧
    (2 ≤ k.toNat → ∃ len value, IsTlv i k len value)) ∧
  (∀ (k k' : Byte) (rest : List Byte) (i i' : Instr) (tl tl' : List Byte),
    2 ≤ k.toNat → 2 ≤ k'.toNat → decode .option (k :: rest) = .ok (i, tl) →
    decode .option (k' :: rest) = .ok (i', tl') → i.wf = i'.wf ∧ tl = tl')

/-- 30_encoding.md R58 and opcode_table.json: every kind byte matches exactly one of the nine option rows,
and the record decodes to that row's instruction. -/
def Obligations.OptionRowsPartitionTheKinds : Prop :=
  ∀ (k : Byte) (rest : List Byte) (i : Instr) (tl : List Byte),
    decode .option (k :: rest) = .ok (i, tl) →
    ∃ r ∈ optionRows, i.kindRow = some r ∧ k &&& r.2 = r.1 ∧
      ∀ r' ∈ optionRows, k &&& r'.2 = r'.1 → r' = r

/-- Words written out from the spec's encodings decode to what they stand for: the four selects (R62; their
codes are the spec's decision D2, on which no claim of behaviour may depend), EOL
(R56), NOP (R57), `OPT 8: 11 22 33 44` (R58), and the prefix of vector V1 (R51 to R53). -/
def Obligations.SpecWordsDecodeAsSpecified : Prop :=
  decode .op [0x00] = .ok (.decode, []) ∧ decode .op [0x01] = .ok (.construct, []) ∧
  decode .op [0x02] = .ok (.encode, []) ∧ decode .op [0x03] = .ok (.checksum, []) ∧
  decode .option [0x00, 0xDE] = .ok (.optEol, [0xDE]) ∧
  decode .option [0x01, 0x77] = .ok (.optNop, [0x77]) ∧
  decode .option [0x08, 0x06, 0x11, 0x22, 0x33, 0x44, 0x00] =
    .ok (.optTlvK08 0 0x06 [0x11, 0x22, 0x33, 0x44], [0x00]) ∧
  decode .header [0x12, 0x34, 0x00, 0x50, 0x01, 0x02, 0x03, 0x04, 0x00, 0x00, 0x00, 0x00, 0x51, 0x02,
      0xFF, 0xFF, 0xBE, 0xEF, 0x00, 0x00] =
    .ok (.hdr20
      { sourcePort := 0x1234, destPort := 0x0050, sequenceNumber := 0x01020304,
        acknowledgmentNumber := 0, lengthNibble := 5, unassigned := 0,
        flags := { Flags.clear with syn := true, ns := true },
        window := 0xFFFF, checksum := 0xBEEF, urgentPointer := 0 }, [])

/-- R53: byte 13 is the OR of each flag into its designated bit, and `ns` is no part of it. -/
def Obligations.FlagsByteLayout : Prop :=
  ∀ f : Flags,
    (flagsByte f).toNat = 0x80 * f.cwr.toNat + 0x40 * f.ece.toNat + 0x20 * f.urg.toNat +
      0x10 * f.ack.toNat + 0x08 * f.psh.toNat + 0x04 * f.rst.toNat + 0x02 * f.syn.toNat +
      0x01 * f.fin.toNat ∧
    (flagsByte f).getLsbD 7 = f.cwr ∧ (flagsByte f).getLsbD 6 = f.ece ∧
    (flagsByte f).getLsbD 5 = f.urg ∧ (flagsByte f).getLsbD 4 = f.ack ∧
    (flagsByte f).getLsbD 3 = f.psh ∧ (flagsByte f).getLsbD 2 = f.rst ∧
    (flagsByte f).getLsbD 1 = f.syn ∧ (flagsByte f).getLsbD 0 = f.fin

/-- 30_encoding.md R52 and R55 (its inverse law is derived in the spec): byte 12 as ENCODE writes it, and the
flags read back from the two bytes. -/
def Obligations.FlagsSurvivePacking : Prop :=
  (∀ (hl : Nat) (f : Flags), hl / 4 ≤ 15 → (lenByte hl f).toNat = 16 * (hl / 4) + f.ns.toNat) ∧
  (∀ (f : Flags) (hl : Nat), hl % 4 = 0 → hl ≤ 60 →
    unpackFlags (lenByte hl f) (flagsByte f) = f ∧ nibbleLength (nibbleOf (lenByte hl f)) = hl)

/-! ### CONSTRUCT -/

/-- R71 and R72. Clauses (c) and (d) of the predicate are the spec's decision D8. -/
def Obligations.ConstructAcceptsExactlyTheValid : Prop :=
  ∀ s : State,
    (20 ≤ s.fields.headerLength ∧ s.fields.headerLength = computedLength s.fields.options ∧
        s.fields.headerLength % 4 = 0 ∧ s.fields.headerLength ≤ 60 →
      exec .construct s = .next { s with status := some .ok, resultHeader := some s.fields,
                                         resultBytes := none, phase := .idle }) ∧
    (¬ (20 ≤ s.fields.headerLength ∧ s.fields.headerLength = computedLength s.fields.options ∧
        s.fields.headerLength % 4 = 0 ∧ s.fields.headerLength ≤ 60) →
      exec .construct s = .next { s with status := some (.error .invalidHeaderLength),
                                         resultHeader := none, resultBytes := none, phase := .idle })

/-- R70: the length functions, and that they count the bytes ENCODE writes. -/
def Obligations.ComputedLengthCountsWireBytes : Prop :=
  (∀ os : List Entry, computedLength os =
    20 + (if os = [] then 0
          else (os.map fun o => if o.kind = 1 then 1 else 2 + o.value.length).sum + 1)) ∧
  (∀ h : Header, (headerWire h).length = computedLength h.options)

/-- R73: what every Header CONSTRUCT accepts satisfies (the spec marks the rule derived). -/
def Obligations.ValidHeaderBounds : Prop :=
  ∀ h : Header, Valid h →
    (h.headerLength % 4 = 0 ∧ 5 ≤ h.headerLength / 4 ∧ h.headerLength / 4 ≤ 15) ∧
    optionsWireLen h.options = h.headerLength - 20 ∧
    (h.options ≠ [] → entriesWireLen h.options % 4 = 3 ∧ entriesWireLen h.options ≤ 39) ∧
    h.options.length ≤ 39 ∧ (∀ o ∈ h.options, o.kind ≠ 1 → o.value.length ≤ 37) ∧
    (headerWire h).length = h.headerLength

/-! ### DECODE, whole -/

/-- R81: fewer than 20 bytes from `offset`, `offset` beyond the buffer included, is BufferTooShort. -/
def Obligations.DecodeRefusesFewerThanTwentyBytes : Prop :=
  ∀ s : State, (s.src.len : Int) - (s.offset : Int) < 20 →
    exec .decode s = .next { s with status := some (.error .bufferTooShort), resultHeader := none,
                                    resultBytes := none, phase := .idle }

/-- R84: a declared length above 20 that the buffer does not hold is BufferTooShort; at 20 or below there
is no second check, and DECODE ends with OK. That a length of 0 to 16 is OK is the spec's decision D10 (R85). -/
def Obligations.DecodeChecksDeclaredLength : Prop :=
  ∀ (s : State) (b12 : Byte), s.offset + 20 ≤ s.src.len → s.src.get (s.offset + 12) = .ok b12 →
    (4 * (b12.toNat / 16) > 20 → (s.src.len : Int) - (s.offset : Int) < 4 * (b12.toNat / 16) →
      exec .decode s = .next { s with status := some (.error .bufferTooShort), resultHeader := none,
                                      resultBytes := none, phase := .idle }) ∧
    (4 * (b12.toNat / 16) ≤ 20 → ∃ h, exec .decode s =
      .next { s with status := some .ok, resultHeader := some h, resultBytes := none, phase := .idle })

/-- R82 (with R32 and R83): the fields of the fixed prefix, big-endian; no value of theirs is an error. -/
def Obligations.DecodeReadsTheFixedPrefix : Prop :=
  ∀ (s : State) (b : Nat → Byte), (∀ k, k < 20 → s.src.get (s.offset + k) = .ok (b k)) →
    (∀ t, exec .decode s = .next t → t.status = some .ok → ∃ h, t.resultHeader = some h ∧
      h.sourcePort.toNat = 256 * (b 0).toNat + (b 1).toNat ∧
      h.destPort.toNat = 256 * (b 2).toNat + (b 3).toNat ∧
      h.sequenceNumber.toNat =
        16777216 * (b 4).toNat + 65536 * (b 5).toNat + 256 * (b 6).toNat + (b 7).toNat ∧
      h.acknowledgmentNumber.toNat =
        16777216 * (b 8).toNat + 65536 * (b 9).toNat + 256 * (b 10).toNat + (b 11).toNat ∧
      h.headerLength = 4 * ((b 12).toNat / 16) ∧
      h.flags = { ns := (b 12).getLsbD 0, fin := (b 13).getLsbD 0, syn := (b 13).getLsbD 1,
                  rst := (b 13).getLsbD 2, psh := (b 13).getLsbD 3, ack := (b 13).getLsbD 4,
                  urg := (b 13).getLsbD 5, ece := (b 13).getLsbD 6, cwr := (b 13).getLsbD 7 } ∧
      h.window.toNat = 256 * (b 14).toNat + (b 15).toNat ∧
      h.checksum.toNat = 256 * (b 16).toNat + (b 17).toNat ∧
      h.urgentPointer.toNat = 256 * (b 18).toNat + (b 19).toNat) ∧
    ((b 12).toNat / 16 = 5 → ∃ h, h.options = [] ∧ exec .decode s =
      .next { s with status := some .ok, resultHeader := some h, resultBytes := none, phase := .idle })

/-- 41_decode.md R85: a length nibble of 0 to 4 is accepted with no options (the spec's decision D10). -/
def Obligations.DecodeAcceptsShortNibble : Prop :=
  ∀ (s : State) (b12 : Byte), s.offset + 20 ≤ s.src.len → s.src.get (s.offset + 12) = .ok b12 →
    b12.toNat / 16 < 5 → ∃ h, h.options = [] ∧ h.headerLength = 4 * (b12.toNat / 16) ∧
      exec .decode s =
        .next { s with status := some .ok, resultHeader := some h, resultBytes := none, phase := .idle }

/-- 41_decode.md R86 to R90: a region that is the records of a list, followed by nothing or by an EOL and
any padding, decodes to that list, in wire order. -/
def Obligations.DecodeReturnsTheRecordsInWireOrder : Prop :=
  ∀ (s : State) (b12 : Byte) (os : List Entry) (tail : List Byte),
    s.offset + 20 ≤ s.src.len → s.src.get (s.offset + 12) = .ok b12 → 5 ≤ b12.toNat / 16 →
    s.src.readBytes (s.offset + 20) (4 * (b12.toNat / 16) - 20) = .ok (entriesWire os ++ tail) →
    (∀ o ∈ os, DecodableEntry o) → (tail = [] ∨ ∃ pad, tail = 0x00 :: pad) →
    ∃ h, h.options = os ∧ h.headerLength = 4 * (b12.toNat / 16) ∧ exec .decode s =
      .next { s with status := some .ok, resultHeader := some h, resultBytes := none, phase := .idle }

/-- 41_decode.md R89 and R91: a TLV record whose length byte lies outside the region (the spec's decision
D11), or is below 2, or reaches past the region, is MalformedOption wherever it stands in the list, and no
part of the list is returned. -/
def Obligations.DecodeRefusesMalformedRecord : Prop :=
  ∀ (s : State) (b12 : Byte) (os : List Entry) (k : Byte) (tail : List Byte),
    s.offset + 20 ≤ s.src.len → s.src.get (s.offset + 12) = .ok b12 → 5 ≤ b12.toNat / 16 →
    s.src.readBytes (s.offset + 20) (4 * (b12.toNat / 16) - 20) =
      .ok (entriesWire os ++ k :: tail) →
    (∀ o ∈ os, DecodableEntry o) → 2 ≤ k.toNat →
    (tail = [] ∨ ∃ len rest, tail = len :: rest ∧ (len.toNat < 2 ∨ 2 + rest.length < len.toNat)) →
    exec .decode s = .next { s with status := some (.error .malformedOption), resultHeader := none,
                                    resultBytes := none, phase := .idle }

/-- 41_decode.md R93 and 20_memory.md R35 (derived in the spec): DECODE always ends with one of its three
statuses, changes nothing else, and never reaches an address outside SRC (which would be a fault). -/
def Obligations.DecodeIsTotal : Prop :=
  ∀ s : State, ∃ t, exec .decode s = .next t ∧
    t = { s with status := t.status, resultHeader := t.resultHeader, resultBytes := none, phase := .idle } ∧
    ((t.status = some .ok ∧ ∃ h, t.resultHeader = some h) ∨
     (t.status = some (.error .bufferTooShort) ∧ t.resultHeader = none) ∨
     (t.status = some (.error .malformedOption) ∧ t.resultHeader = none))

/-- 41_decode.md R93 item 4 (derived in the spec): the shape of a decoded Header. -/
def Obligations.DecodedHeaderShape : Prop :=
  ∀ (s t : State) (h : Header), exec .decode s = .next t → t.resultHeader = some h →
    h.headerLength % 4 = 0 ∧ h.headerLength ≤ 60 ∧ h.options.length ≤ 40 ∧
    (∀ o ∈ h.options, o.kind ≠ 0 ∧ (o.kind = 1 → o.value = []) ∧ o.value.length ≤ 38) ∧
    entriesWireLen h.options ≤ max 20 h.headerLength - 20

/-- 41_decode.md R93 item 5 (derived in the spec): the outcome depends on the header's own bytes alone, not
on the bytes before or after it, nor on where it lies. -/
def Obligations.DecodeDependsOnHeaderBytesOnly : Prop :=
  ∀ (s u s' u' : State) (b12 : Byte), s.src.get (s.offset + 12) = .ok b12 →
    (∀ k, k < max 20 (4 * (b12.toNat / 16)) → s.src.get (s.offset + k) = u.src.get (u.offset + k)) →
    exec .decode s = .next s' → exec .decode u = .next u' →
    s'.status = u'.status ∧ s'.resultHeader = u'.resultHeader

/-! ### ENCODE, whole -/

/-- 42_encode.md R101 (the spec's decision D9): a Header that is not valid is refused first, whatever the
destination is, and nothing is written. -/
def Obligations.EncodeRefusesInvalidHeader : Prop :=
  ∀ s : State, ¬ Valid s.header →
    exec .encode s = .next { s with status := some (.error .invalidHeaderLength), resultHeader := none,
                                    resultBytes := none, phase := .idle }

/-- 42_encode.md R103 (nothing is written: the spec's decision D13). -/
def Obligations.EncodeRefusesShortDestination : Prop :=
  ∀ s : State, Valid s.header → s.bufPresent = true → s.dst.len < s.offset + s.header.headerLength →
    exec .encode s = .next { s with status := some (.error .bufferTooShort), resultHeader := none,
                                    resultBytes := none, phase := .idle }

/-- 42_encode.md R100, R113 and 20_memory.md R36: into the caller's buffer, the bytes from `offset` on are
the Header's and every other byte keeps its value (the spec's decision D14). That SRC does not change with DST is
the model's choice (log 20). -/
def Obligations.EncodeIntoCallersBuffer : Prop :=
  ∀ s : State, s.dst.wf = true → Valid s.header → s.bufPresent = true →
    s.offset + s.header.headerLength ≤ s.dst.len →
    ∃ out, exec .encode s = .next { s with status := some .ok, resultHeader := none,
                                           resultBytes := some out, dst := out, phase := .idle } ∧
      out.len = s.dst.len ∧ out.wf = true ∧
      out.readBytes s.offset s.header.headerLength = .ok (headerWire s.header) ∧
      ∀ a, a < s.offset ∨ s.offset + s.header.headerLength ≤ a → out.get a = s.dst.get a

/-- 42_encode.md R102 and 20_memory.md R37: without a caller's buffer the result is a fresh buffer of
exactly `headerLength` bytes, `offset` is ignored (the spec's decision D15), and DST is untouched. -/
def Obligations.EncodeIntoFreshBuffer : Prop :=
  ∀ s : State, Valid s.header → s.bufPresent = false →
    (headerWire s.header).length = s.header.headerLength ∧
    exec .encode s = .next { s with status := some .ok, resultHeader := none,
                                    resultBytes := some (Memory.ofBytes (headerWire s.header)),
                                    phase := .idle }

/-- R104 to R107: the 20 bytes of the fixed prefix, byte by byte, at `offset` of the caller's buffer or at the
start of a fresh one; the checksum goes out as stored. That a fresh buffer's header start is 0 whatever
`offset` is presented is the spec's decision D15 (R102; log 17). -/
def Obligations.EncodeWritesTheFixedPrefix : Prop :=
  ∀ s : State, s.dst.wf = true → Valid s.header →
    (s.bufPresent = true → s.offset + s.header.headerLength ≤ s.dst.len) →
    ∃ t m, exec .encode s = .next t ∧ t.status = some .ok ∧ t.resultBytes = some m ∧
      (s.bufPresent = true → t.dst = m) ∧
      m.readBytes (if s.bufPresent then s.offset else 0) 20 = .ok
      [ .ofNat 8 (s.header.sourcePort.toNat / 256), .ofNat 8 (s.header.sourcePort.toNat % 256),
        .ofNat 8 (s.header.destPort.toNat / 256), .ofNat 8 (s.header.destPort.toNat % 256),
        .ofNat 8 (s.header.sequenceNumber.toNat / 16777216),
        .ofNat 8 (s.header.sequenceNumber.toNat / 65536 % 256),
        .ofNat 8 (s.header.sequenceNumber.toNat / 256 % 256),
        .ofNat 8 (s.header.sequenceNumber.toNat % 256),
        .ofNat 8 (s.header.acknowledgmentNumber.toNat / 16777216),
        .ofNat 8 (s.header.acknowledgmentNumber.toNat / 65536 % 256),
        .ofNat 8 (s.header.acknowledgmentNumber.toNat / 256 % 256),
        .ofNat 8 (s.header.acknowledgmentNumber.toNat % 256),
        .ofNat 8 (16 * (s.header.headerLength / 4) + s.header.flags.ns.toNat),
        .ofNat 8 (128 * s.header.flags.cwr.toNat + 64 * s.header.flags.ece.toNat +
          32 * s.header.flags.urg.toNat + 16 * s.header.flags.ack.toNat +
          8 * s.header.flags.psh.toNat + 4 * s.header.flags.rst.toNat +
          2 * s.header.flags.syn.toNat + s.header.flags.fin.toNat),
        .ofNat 8 (s.header.window.toNat / 256), .ofNat 8 (s.header.window.toNat % 256),
        .ofNat 8 (s.header.checksum.toNat / 256), .ofNat 8 (s.header.checksum.toNat % 256),
        .ofNat 8 (s.header.urgentPointer.toNat / 256), .ofNat 8 (s.header.urgentPointer.toNat % 256) ]

/-- R108 to R111: the options in sequence order from header offset 20, kind 1 as one byte, any other kind as
kind, length byte and value, and one sentinel after a non-empty list, in the caller's buffer or in a fresh
one. That ENCODE accepts kind-0 entries and kind-1 entries with a value, and what it writes for them, is the
spec's decision D7 (R74); that `offset` is ignored for a fresh buffer is its decision D15. -/
def Obligations.EncodeWritesTheOptionsAndOneSentinel : Prop :=
  ∀ s : State, s.dst.wf = true → Valid s.header →
    (s.bufPresent = true → s.offset + s.header.headerLength ≤ s.dst.len) →
    ∃ t m, exec .encode s = .next t ∧ t.status = some .ok ∧ t.resultBytes = some m ∧
      (s.bufPresent = true → t.dst = m) ∧
      m.readBytes ((if s.bufPresent then s.offset else 0) + 20) (s.header.headerLength - 20) = .ok
      (s.header.options.flatMap
          (fun o => if o.kind = 1 then [0x01]
                    else o.kind :: BitVec.ofNat 8 (2 + o.value.length) :: o.value) ++
        (if s.header.options = [] then [] else [0x00]))

/-- 42_encode.md R113 items 1 and 5 (derived in the spec): ENCODE always ends with one of its three
statuses; on an error nothing is written (its decision D13); on OK only DST can change. That SRC does not change
with DST is the model's choice (log 20). -/
def Obligations.EncodeIsTotal : Prop :=
  ∀ s : State, ∃ t, exec .encode s = .next t ∧
    t = { s with status := t.status, resultHeader := none, resultBytes := t.resultBytes, dst := t.dst,
                 phase := .idle } ∧
    ((t.status = some .ok ∧ ∃ m, t.resultBytes = some m ∧ t.dst = if s.bufPresent then m else s.dst) ∨
     (t.status = some (.error .invalidHeaderLength) ∧ t.resultBytes = none ∧ t.dst = s.dst) ∨
     (t.status = some (.error .bufferTooShort) ∧ t.resultBytes = none ∧ t.dst = s.dst))

/-! ### The round trip -/

/-- 41_decode.md R94, first law (E1 and E2 of the source): DECODE of what ENCODE wrote gives the Header back,
all ten fields, from a fresh buffer and from the caller's alike. That a fresh buffer's header start is 0 whatever
`offset` is presented is the spec's decision D15 (R102). -/
def Obligations.DecodeAfterEncodeGivesTheHeader : Prop :=
  ∀ s : State, s.dst.wf = true → RoundTrips s.header →
    (s.bufPresent = true → s.offset + s.header.headerLength ≤ s.dst.len) →
    ∃ t out u, exec .encode s = .next t ∧ t.resultBytes = some out ∧
      exec .decode { t with src := out, offset := if s.bufPresent then s.offset else 0 } = .next u ∧
      u.status = some .ok ∧ u.resultHeader = some s.header

/-- 40_construct.md R74 and 70_reset_and_hazards.md R156 (the spec's decision D7): what comes back, from a
fresh buffer, when entries do not round-trip. A kind-0 entry ends the list, a kind-1 entry loses its value. That a
fresh buffer's header start is 0 whatever `offset` is presented is the spec's decision D15 (R102; log 17). -/
def Obligations.DecodeAfterEncodeKeepsTheSurvivors : Prop :=
  ∀ s : State, Valid s.header → s.bufPresent = false →
    ∃ t out u, exec .encode s = .next t ∧ t.resultBytes = some out ∧
      exec .decode { t with src := out, offset := 0 } = .next u ∧ u.status = some .ok ∧
      u.resultHeader = some { s.header with options := survivors s.header.options }

/-- 41_decode.md R94, second law: ENCODE of a valid decoded Header into a fresh buffer gives the bytes it was
decoded from, but for bits 3:1 of byte 12, which ENCODE writes as 0. R94 presents offset 0; here ENCODE is
presented the offset DECODE used, and that it is ignored is the spec's decision D15 (R102; log 17). -/
def Obligations.EncodeAfterDecodeGivesTheBytes : Prop :=
  ∀ (s t : State) (h : Header), exec .decode s = .next t → t.resultHeader = some h → Valid h →
    ∃ u m, exec .encode { t with header := h, bufPresent := false } = .next u ∧
      u.status = some .ok ∧ u.resultBytes = some m ∧ m.len = h.headerLength ∧
      ∀ k, k < h.headerLength → ∃ b, s.src.get (s.offset + k) = .ok b ∧
        m.get k = .ok (if k = 12 then b &&& 0xF1 else b)

/-! ### CHECKSUM, and the four operations together -/

/-- 43_checksum_hook.md R121 (NotSupported is the spec's decision D17): always NotSupported, nothing read,
nothing written. -/
def Obligations.ChecksumIsNotSupported : Prop :=
  ∀ s : State, exec .checksum s = .next
    { s with
      status := some (.error .notSupported), resultHeader := none, resultBytes := none,
      phase := .idle }

/-- R137: the next operation runs as if the failed one had never been issued, and the failed one, issued
again, fails in the same way. -/
def Obligations.FailedOperationLeavesNoTrace : Prop :=
  ∀ (s t : State) (i j : Instr), IsOperation i → IsOperation j → exec i s = .next t →
    t.status ≠ some .ok → exec j t = exec j s ∧ exec i t = .next t

/-- 10_state.md R15: the status and the result of an operation, and DST after it, are a function of the
operands alone: not of the status, results or anything else an earlier operation left. -/
def Obligations.OutcomeDependsOnOperandsAlone : Prop :=
  ∀ (s u s' u' : State) (i : Instr), IsOperation i → s.src = u.src → s.dst = u.dst →
    s.offset = u.offset → s.fields = u.fields → s.header = u.header → s.bufPresent = u.bufPresent →
    exec i s = .next s' → exec i u = .next u' →
    s'.status = u'.status ∧ s'.resultHeader = u'.resultHeader ∧ s'.resultBytes = u'.resultBytes ∧
    s'.dst = u'.dst

/-- 10_state.md R19 and 20_memory.md R35, R36, R38: the frame of the four operations. No operation changes an
operand port or a byte of SRC; DECODE, CONSTRUCT and CHECKSUM change no byte of DST; ENCODE changes DST in
`[offset, offset + headerLength)` alone (the spec's decision D14), and not at all without a caller's buffer. That
SRC does not change with DST is the model's choice (log 20). -/
def Obligations.OperationFrame : Prop :=
  ∀ (s t : State) (i : Instr), IsOperation i → exec i s = .next t →
    t.op = s.op ∧ t.offset = s.offset ∧ t.fields = s.fields ∧ t.header = s.header ∧
    t.bufPresent = s.bufPresent ∧ t.ipctx = s.ipctx ∧ t.host = s.host ∧ t.resetIn = s.resetIn ∧
    t.freeIndex = s.freeIndex ∧ (∀ a, t.src.get a = s.src.get a) ∧
    (∀ a, i ≠ .encode ∨ s.bufPresent = false ∨ a < s.offset ∨ s.offset + s.header.headerLength ≤ a →
      t.dst.get a = s.dst.get a)

/-! ### The records, one at a time -/

/-- 41_decode.md R82 to R85, as HDR20 inside DECODE: the second bounds check, the empty region, or the option
loop at header offset 20. -/
def Obligations.FixedPrefixInsideDecode : Prop :=
  ∀ (s : State) (p : FixedPrefix), s.phase = .decodePrefix →
    let h : Header :=
      { sourcePort := p.sourcePort, destPort := p.destPort, sequenceNumber := p.sequenceNumber,
        acknowledgmentNumber := p.acknowledgmentNumber, flags := p.flags, window := p.window,
        checksum := p.checksum, urgentPointer := p.urgentPointer,
        headerLength := 4 * p.lengthNibble.toNat, options := [] }
    (20 < h.headerLength → (s.src.len : Int) - (s.offset : Int) < h.headerLength →
      exec (.hdr20 p) s = .next { s with status := some (.error .bufferTooShort), resultHeader := none,
                                         resultBytes := none, phase := .idle }) ∧
    (20 < h.headerLength → (h.headerLength : Int) ≤ (s.src.len : Int) - (s.offset : Int) →
      exec (.hdr20 p) s = .next
        { s with phase := .decodeOptions ⟨h, 20, h.headerLength, []⟩ }) ∧
    (h.headerLength ≤ 20 →
      exec (.hdr20 p) s = .next { s with status := some .ok, resultHeader := some h,
                                         resultBytes := none, phase := .idle })

/-- 42_encode.md R104, as HDR20 inside ENCODE: its 20 bytes at the cursor and no other byte; ENCODE ends
there when there are no options. The record-by-record run is the model's (log 4); that SRC does not change with
DST is the model's choice (log 20). -/
def Obligations.FixedPrefixInsideEncode : Prop :=
  ∀ (s : State) (p : FixedPrefix) (e : EncodeLocal), s.phase = .encodePrefix e → e.out.wf = true →
    e.start + e.pos + 20 ≤ e.out.len →
    ∃ out, out.len = e.out.len ∧ out.readBytes (e.start + e.pos) 20 = .ok (encode (.hdr20 p)) ∧
      (∀ a, a < e.start + e.pos ∨ e.start + e.pos + 20 ≤ a → out.get a = e.out.get a) ∧
      (e.pending = [] → exec (.hdr20 p) s =
        .next { s with status := some .ok, resultHeader := none, resultBytes := some out,
                       dst := if s.bufPresent then out else s.dst, phase := .idle }) ∧
      (e.pending ≠ [] → exec (.hdr20 p) s =
        .next { s with phase := .encodeOptions ⟨out, e.start, e.pos + 20, e.pending⟩ })

/-- R87: EOL inside DECODE ends the list; nothing is appended, the cursor does not advance, what follows it
is not looked at. -/
def Obligations.EolInsideDecode : Prop :=
  ∀ (s : State) (d : DecodeLocal), s.phase = .decodeOptions d →
    exec .optEol s = .next
      { s with
        status := some .ok, resultHeader := some { d.header with options := d.opts },
        resultBytes := none, phase := .idle }

/-- R88 and R90: NOP inside DECODE appends an entry of kind 1 with an empty value and advances by 1; when
that reaches the end of the region DECODE ends. -/
def Obligations.NopInsideDecode : Prop :=
  ∀ (s : State) (d : DecodeLocal), s.phase = .decodeOptions d →
    (d.pos + 1 < d.regionEnd → exec .optNop s = .next
      { s with phase := .decodeOptions ⟨d.header, d.pos + 1, d.regionEnd, d.opts ++ [⟨1, []⟩]⟩ }) ∧
    (d.regionEnd ≤ d.pos + 1 → exec .optNop s = .next
      { s with
        status := some .ok, resultHeader := some { d.header with options := d.opts ++ [⟨1, []⟩] },
        resultBytes := none, phase := .idle })

/-- 41_decode.md R89 and R90: each of the seven TLV instructions inside DECODE, where the record fits: the
entry is appended and the cursor advances by the encoded length. -/
def Obligations.TlvInsideDecode : Prop :=
  ∀ (s : State) (d : DecodeLocal) (i : Instr) (k len : Byte) (value : List Byte),
    IsTlv i k len value → s.phase = .decodeOptions d → d.pos + 1 < d.regionEnd → 2 ≤ len.toNat →
    (d.pos + len.toNat < d.regionEnd → exec i s = .next
      { s with
        phase := .decodeOptions
          ⟨d.header, d.pos + len.toNat, d.regionEnd, d.opts ++ [⟨k, value⟩]⟩ }) ∧
    (d.pos + len.toNat = d.regionEnd → exec i s = .next
      { s with
        status := some .ok, resultHeader := some { d.header with options := d.opts ++ [⟨k, value⟩] },
        resultBytes := none, phase := .idle })

/-- 60_exceptions.md R133: the three causes of MalformedOption (the first is the spec's decision D11), for
each of the seven TLV instructions. -/
def Obligations.TlvMalformedInsideDecode : Prop :=
  ∀ (s : State) (d : DecodeLocal) (i : Instr) (k len : Byte) (value : List Byte),
    IsTlv i k len value → s.phase = .decodeOptions d →
    (d.pos + 1 ≥ d.regionEnd ∨ len.toNat < 2 ∨ d.pos + len.toNat > d.regionEnd) →
    exec i s = .next { s with status := some (.error .malformedOption), resultHeader := none,
                              resultBytes := none, phase := .idle }

/-- 42_encode.md R109 and R110: NOP and each of the seven TLV instructions inside ENCODE write their bytes at
the cursor and no other byte. -/
def Obligations.EntriesInsideEncode : Prop :=
  ∀ (s : State) (e : EncodeLocal) (i : Instr) (bytes : List Byte),
    ((i = .optNop ∧ bytes = [0x01]) ∨
      ∃ k len value, IsTlv i k len value ∧ bytes = k :: len :: value) →
    s.phase = .encodeOptions e → e.out.wf = true → e.start + e.pos + bytes.length ≤ e.out.len →
    ∃ out, exec i s = .next
        { s with phase := .encodeOptions ⟨out, e.start, e.pos + bytes.length, e.pending.tail⟩ } ∧
      out.len = e.out.len ∧ out.readBytes (e.start + e.pos) bytes.length = .ok bytes ∧
      ∀ a, a < e.start + e.pos ∨ e.start + e.pos + bytes.length ≤ a → out.get a = e.out.get a

/-- 42_encode.md R111: EOL inside ENCODE writes one 0 at the cursor and no other byte, and ENCODE ends with
the destination bytes. The record-by-record run is the model's (log 4); that SRC does not change with DST is the
model's choice (log 20). -/
def Obligations.SentinelInsideEncode : Prop :=
  ∀ (s : State) (e : EncodeLocal), s.phase = .encodeOptions e → e.out.wf = true →
    e.start + e.pos < e.out.len →
    ∃ out, exec .optEol s = .next
        { s with
          status := some .ok, resultHeader := none, resultBytes := some out,
          dst := if s.bufPresent then out else s.dst, phase := .idle } ∧
      out.len = e.out.len ∧ out.get (e.start + e.pos) = .ok 0x00 ∧
      ∀ a, a ≠ e.start + e.pos → out.get a = e.out.get a

/-- The model's choice (log 13; 00_scope.md R7, 10_state.md R16): a record form outside the part of an
operation that handles it is refused. -/
def Obligations.RecordsOutOfPlaceAreRefused : Prop :=
  ∀ (s : State) (i : Instr),
    (i.format = .option → (∀ d, s.phase ≠ .decodeOptions d) → (∀ e, s.phase ≠ .encodeOptions e) →
      exec i s = .refused .outOfPlace) ∧
    (i.format = .header → s.phase ≠ .decodePrefix → (∀ e, s.phase ≠ .encodePrefix e) →
      exec i s = .refused .outOfPlace)

/-! ### The step -/

/-- A step runs the decoded instruction (the fetch is the model's: log 3, log 4; 10_state.md R16, R18): the
operation the host issues (the select codes are the spec's decision D2); the prefix at `offset`; the record at
the cursor; and, in ENCODE, the prefix of the operand, the record of the next entry, the sentinel. -/
def Obligations.StepRunsTheDecodedInstruction : Prop :=
  ∀ s : State, s.resetIn = none →
    (∀ (op : BitVec 2) (es : List HostEvent) (i : Instr) (rest : List Byte), s.phase = .idle →
      s.host = .issue op :: es → decode .op [BitVec.ofNat 8 op.toNat] = .ok (i, rest) →
      step s = exec i { s with host := es, op := op }) ∧
    (∀ (bs : List Byte) (i : Instr) (rest : List Byte), s.phase = .decodePrefix →
      s.src.readBytes s.offset 20 = .ok bs → decode .header bs = .ok (i, rest) → step s = exec i s) ∧
    (∀ (d : DecodeLocal) (bs : List Byte) (i : Instr) (rest : List Byte),
      s.phase = .decodeOptions d → d.pos < d.regionEnd →
      s.src.readBytes (s.offset + d.pos) (d.regionEnd - d.pos) = .ok bs →
      decode .option bs = .ok (i, rest) → step s = exec i s) ∧
    (∀ e : EncodeLocal, s.phase = .encodePrefix e →
      step s = exec (.hdr20 (prefixOfHeader s.header)) s) ∧
    (∀ (e : EncodeLocal) (o : Entry) (os : List Entry), s.phase = .encodeOptions e →
      e.pending = o :: os → o.kind ≠ 0 →
      ∃ i, i.format = .option ∧ encode i = entryBytes o ∧ step s = exec i s) ∧
    (∀ e : EncodeLocal, s.phase = .encodeOptions e → e.pending = [] → step s = exec .optEol s)

/-- The invariant holds after reset, whose outputs are invalid and whose block is idle (70_reset_and_hazards.md
R150, the spec's decision D18). -/
def Obligations.ResetMeetsTheInvariant : Prop :=
  State.reset.Inv ∧ State.reset.status = none ∧ State.reset.resultHeader = none ∧
    State.reset.resultBytes = none ∧ State.reset.phase = .idle

/-- Every step keeps the invariant: the buffers stay in canonical form, a result stands exactly when the
status is OK (10_state.md R17), and an operation under way has passed its checks and stays within its bounds
(41_decode.md R93 items 2 and 3, 42_encode.md R113 item 2). -/
def Obligations.StepKeepsTheInvariant : Prop :=
  ∀ s t : State, s.Inv → step s = .next t → t.Inv

/-- 60_exceptions.md R140 (derived in the spec): an operation under way never stops the machine: no fault, no
refusal. -/
def Obligations.OperationUnderWayNeverStops : Prop :=
  ∀ s : State, s.Inv → s.phase ≠ .idle → ∃ t, step s = .next t

/-- 10_state.md R16: in a step that stays in the option loop the cursor moves forward by exactly the size of
the record, one entry is appended, and the end of the region stays. -/
def Obligations.CursorAdvancesByTheRecord : Prop :=
  ∀ (s t : State) (d d' : DecodeLocal), s.Inv → s.resetIn = none → s.phase = .decodeOptions d →
    step s = .next t → t.phase = .decodeOptions d' →
    d.pos < d'.pos ∧ d'.regionEnd = d.regionEnd ∧ d'.header = d.header ∧
    ∃ o, d'.opts = d.opts ++ [o] ∧ d'.pos = d.pos + optWireLen o

/-- 41_decode.md R86 to R92: DECODE run record by record ends in the state the one-transaction DECODE ends in,
within 42 steps (the start, the prefix, at most 40 turns of the loop: R93, R159). The record-by-record run is
the model's (log 4); the select code 0 of DECODE is the spec's decision D2. -/
def Obligations.DecodeRecordByRecordAgrees : Prop :=
  ∀ (s : State) (es : List HostEvent), s.phase = .idle → s.resetIn = none →
    s.host = .walk 0#2 :: es →
    ∃ n, n ≤ 42 ∧ Sys2Proof.core.run n s = exec .decode { s with host := es, op := 0#2 }

/-- 42_encode.md R108 to R112: ENCODE run record by record ends in the state the one-transaction ENCODE ends in,
within 42 steps. The record-by-record run is the model's (log 4); the select code 2 of ENCODE is the spec's
decision D2. -/
def Obligations.EncodeRecordByRecordAgrees : Prop :=
  ∀ (s : State) (es : List HostEvent), s.phase = .idle → s.resetIn = none →
    s.host = .walk 2#2 :: es →
    ∃ n, n ≤ 42 ∧ Sys2Proof.core.run n s = exec .encode { s with host := es, op := 2#2 }

/-- 70_reset_and_hazards.md R150 (the spec's decision D18; log 9): reset leaves the block idle, its outputs
invalid and the host's ports as they were; DST changes only when an ENCODE into it is abandoned, and then each
byte of the target range is its old or its new value, whichever the free value says. That SRC does not change
with DST is the model's choice (log 20). -/
def Obligations.ResetAbandonsTheOperation : Prop :=
  ∀ s : State, s.Inv → s.resetIn = some 0 →
    ∃ t, step s = .next t ∧ t.status = none ∧ t.resultHeader = none ∧ t.resultBytes = none ∧
      t.phase = .idle ∧ t.op = s.op ∧ t.src = s.src ∧ t.offset = s.offset ∧ t.fields = s.fields ∧
      t.header = s.header ∧ t.bufPresent = s.bufPresent ∧ t.ipctx = s.ipctx ∧ t.host = s.host ∧
      t.resetIn = none ∧ t.dst.len = s.dst.len ∧
      (s.bufPresent = false ∨
          (∀ e, s.phase ≠ .encodePrefix e) ∧ (∀ e, s.phase ≠ .encodeOptions e) → t.dst = s.dst) ∧
      (∀ a, a < s.offset ∨ s.offset + s.header.headerLength ≤ a → t.dst.get a = s.dst.get a) ∧
      (∀ (k : Nat) (b : Byte), (headerWire s.header)[k]? = some b →
        t.dst.get (s.offset + k) = s.dst.get (s.offset + k) ∨ t.dst.get (s.offset + k) = .ok b)

/-! ### The host -/

/-- 43_checksum_hook.md R122 and 20_memory.md R45 (the action is the model's: log 16): the collaborator changes
exactly the two bytes at `offset + 16` and `offset + 17` of DST. That SRC and the result bytes, which R100 calls
the caller's DST, do not change with DST is the model's choice (log 20). -/
def Obligations.CollaboratorChangesTwoBytes : Prop :=
  ∀ (s : State) (b16 b17 : Byte) (es : List HostEvent), s.phase = .idle → s.resetIn = none →
    s.host = .collaborator b16 b17 :: es → s.dst.wf = true → s.offset + 18 ≤ s.dst.len →
    ∃ m, step s = .next { s with host := es, dst := m } ∧ m.len = s.dst.len ∧
      m.get (s.offset + 16) = .ok b16 ∧ m.get (s.offset + 17) = .ok b17 ∧
      ∀ a, a ≠ s.offset + 16 → a ≠ s.offset + 17 → m.get a = s.dst.get a

/-- 10_state.md R18 and 20_memory.md R43 (the actions are the model's: log 3; that they pass copies: log 20): a
hand-over passes the valid result, or DST, to the port and changes nothing else; while the result is invalid
the port gets some value, a free one (70_reset_and_hazards.md R150, 93_implementation_defined.md U11; log 19),
and nothing stops. -/
def Obligations.HandOversPassTheResult : Prop :=
  ∀ (s : State) (es : List HostEvent), s.phase = .idle → s.resetIn = none →
    (s.host = .srcFromDst :: es → step s = .next { s with host := es, src := s.dst }) ∧
    (∀ m, s.host = .srcFromResult :: es → s.resultBytes = some m →
      step s = .next { s with host := es, src := m }) ∧
    (∀ m, s.host = .dstFromResult :: es → s.resultBytes = some m →
      step s = .next { s with host := es, dst := m }) ∧
    (∀ h, s.host = .headerFromResult :: es → s.resultHeader = some h →
      step s = .next { s with host := es, header := h }) ∧
    (s.host = .srcFromResult :: es → s.resultBytes = none → ∃ (m : Memory) (n : Nat), m.wf = true ∧
      step s = .next { s with host := es, src := m, freeIndex := n }) ∧
    (s.host = .dstFromResult :: es → s.resultBytes = none → ∃ (m : Memory) (n : Nat), m.wf = true ∧
      step s = .next { s with host := es, dst := m, freeIndex := n }) ∧
    (s.host = .headerFromResult :: es → s.resultHeader = none → ∃ (h : Header) (n : Nat),
      step s = .next { s with host := es, header := h, freeIndex := n })

/-- 60_exceptions.md R140 (derived in the spec), for the whole machine: from a state that meets the invariant a
step stops only where the collaborator's action comes next (log 16). Issuing or walking any operation with any
operands, handing over any result and reset never stop. -/
def Obligations.OnlyTheCollaboratorCanStop : Prop :=
  ∀ s : State, s.Inv → (∀ b16 b17 es, s.host ≠ .collaborator b16 b17 :: es) → ∃ t, step s = .next t
end

