-- ==== Sys2Proof/Laws/Bytes.lean ====
section
/-! SUPPORT. The byte order and the packed bytes 12 and 13, as numbers and as bits. -/

namespace Sys2Proof.Machine

/-! ### Big-endian fields -/

theorem append_toNat {n m : Nat} (x : BitVec n) (y : BitVec m) :
    (x ++ y).toNat = x.toNat * 2 ^ m + y.toNat := by
  rw [BitVec.toNat_append, ← Nat.shiftLeft_add_eq_or_of_lt y.isLt, Nat.shiftLeft_eq]

theorem join2_toNat (b0 b1 : Byte) : (join2 b0 b1).toNat = 256 * b0.toNat + b1.toNat := by
  rw [join2, append_toNat]
  omega

theorem join4_toNat (b0 b1 b2 b3 : Byte) : (join4 b0 b1 b2 b3).toNat =
    16777216 * b0.toNat + 65536 * b1.toNat + 256 * b2.toNat + b3.toNat := by
  rw [join4, append_toNat, append_toNat, append_toNat]
  omega

theorem split2_eq (w : Half) :
    split2 w = [BitVec.ofNat 8 (w.toNat / 256), BitVec.ofNat 8 (w.toNat % 256)] := by
  have := w.isLt
  rw [split2, List.cons.injEq, List.cons.injEq]
  refine ⟨?_, ?_, rfl⟩ <;> apply BitVec.eq_of_toNat_eq <;>
    simp only [BitVec.extractLsb'_toNat, BitVec.toNat_ofNat, Nat.shiftRight_eq_div_pow] <;> omega

theorem split4_eq (w : Word) :
    split4 w = [BitVec.ofNat 8 (w.toNat / 16777216), BitVec.ofNat 8 (w.toNat / 65536 % 256),
      BitVec.ofNat 8 (w.toNat / 256 % 256), BitVec.ofNat 8 (w.toNat % 256)] := by
  have := w.isLt
  rw [split4, List.cons.injEq, List.cons.injEq, List.cons.injEq, List.cons.injEq]
  refine ⟨?_, ?_, ?_, ?_, rfl⟩ <;> apply BitVec.eq_of_toNat_eq <;>
    simp only [BitVec.extractLsb'_toNat, BitVec.toNat_ofNat, Nat.shiftRight_eq_div_pow] <;> omega

/-- A 2-byte field read back from the bytes written. -/
theorem join2_split2 (w : Half) : join2 (w.extractLsb' 8 8) (w.extractLsb' 0 8) = w := by
  have := w.isLt
  apply BitVec.eq_of_toNat_eq
  rw [join2_toNat]
  simp only [BitVec.extractLsb'_toNat, Nat.shiftRight_eq_div_pow]
  omega

/-- A 4-byte field read back from the bytes written. -/
theorem join4_split4 (w : Word) : join4 (w.extractLsb' 24 8) (w.extractLsb' 16 8)
    (w.extractLsb' 8 8) (w.extractLsb' 0 8) = w := by
  have := w.isLt
  apply BitVec.eq_of_toNat_eq
  rw [join4_toNat]
  simp only [BitVec.extractLsb'_toNat, Nat.shiftRight_eq_div_pow]
  omega

/-- The bytes of a 2-byte field that two bytes make. -/
theorem split2_join2 (b0 b1 : Byte) : split2 (join2 b0 b1) = [b0, b1] := by
  have h0 := b0.isLt
  have h1 := b1.isLt
  rw [split2_eq, join2_toNat, List.cons.injEq, List.cons.injEq]
  refine ⟨?_, ?_, rfl⟩ <;> apply BitVec.eq_of_toNat_eq <;> rw [BitVec.toNat_ofNat] <;> omega

/-- The bytes of a 4-byte field that four bytes make. -/
theorem split4_join4 (b0 b1 b2 b3 : Byte) : split4 (join4 b0 b1 b2 b3) = [b0, b1, b2, b3] := by
  have h0 := b0.isLt
  have h1 := b1.isLt
  have h2 := b2.isLt
  have h3 := b3.isLt
  rw [split4_eq, join4_toNat, List.cons.injEq, List.cons.injEq, List.cons.injEq, List.cons.injEq]
  refine ⟨?_, ?_, ?_, ?_, rfl⟩ <;> apply BitVec.eq_of_toNat_eq <;> rw [BitVec.toNat_ofNat] <;> omega

/-! ### Bytes 12 and 13 -/

theorem flagsByte_bits (f : Flags) :
    (flagsByte f).getLsbD 0 = f.fin ∧ (flagsByte f).getLsbD 1 = f.syn ∧
    (flagsByte f).getLsbD 2 = f.rst ∧ (flagsByte f).getLsbD 3 = f.psh ∧
    (flagsByte f).getLsbD 4 = f.ack ∧ (flagsByte f).getLsbD 5 = f.urg ∧
    (flagsByte f).getLsbD 6 = f.ece ∧ (flagsByte f).getLsbD 7 = f.cwr := by
  obtain ⟨fin, syn, rst, psh, ack, urg, ece, cwr, ns⟩ := f
  cases ns <;> cases fin <;> cases syn <;> cases rst <;> cases psh <;> cases ack <;> cases urg <;> cases ece <;>
    cases cwr <;> decide

theorem byte12_parts : ∀ (n : BitVec 4) (m : BitVec 3) (b : Bool), nibbleOf (byte12 n m b) = n ∧
    unassignedOf (byte12 n m b) = m ∧ (byte12 n m b).getLsbD 0 = b := by decide

theorem byte12_of_parts : ∀ b : Byte, byte12 (nibbleOf b) (unassignedOf b) (b.getLsbD 0) = b := by
  decide

theorem nibbleOf_toNat : ∀ b : Byte, (nibbleOf b).toNat = b.toNat / 16 := by decide

theorem byte12_clear : ∀ b : Byte, byte12 (nibbleOf b) 0 (b.getLsbD 0) = b &&& 0xF1 := by decide

theorem byte12_toNat : ∀ (n : BitVec 4) (b : Bool), (byte12 n 0 b).toNat = 16 * n.toNat + b.toNat := by
  decide

/-- The flags read back from packed bytes. -/
theorem unpackFlags_pack (n : BitVec 4) (m : BitVec 3) (f : Flags) :
    unpackFlags (byte12 n m f.ns) (flagsByte f) = f := by
  obtain ⟨h0, h1, h2, h3, h4, h5, h6, h7⟩ := flagsByte_bits f
  rw [unpackFlags, h0, h1, h2, h3, h4, h5, h6, h7, (byte12_parts n m f.ns).2.2]

/-- Byte 13 packed from the flags read from it. -/
theorem flagsByte_unpack (b12 b13 : Byte) : flagsByte (unpackFlags b12 b13) = b13 := by
  obtain ⟨h0, h1, h2, h3, h4, h5, h6, h7⟩ := flagsByte_bits (unpackFlags b12 b13)
  apply BitVec.eq_of_getLsbD_eq
  intro i hi
  match i, hi with
  | 0, _ => exact h0
  | 1, _ => exact h1
  | 2, _ => exact h2
  | 3, _ => exact h3
  | 4, _ => exact h4
  | 5, _ => exact h5
  | 6, _ => exact h6
  | 7, _ => exact h7

theorem lengthNibble_toNat {hl : Nat} (h : hl / 4 ≤ 15) : (lengthNibble hl).toNat = hl / 4 := by
  rw [lengthNibble, BitVec.toNat_ofNat]
  omega

/-- A legal header length survives the nibble. -/
theorem nibbleLength_lengthNibble {hl : Nat} (h4 : hl % 4 = 0) (h60 : hl ≤ 60) :
    nibbleLength (lengthNibble hl) = hl := by
  rw [nibbleLength, lengthNibble_toNat (by omega)]
  omega

theorem nibbleLength_bounds (n : BitVec 4) : nibbleLength n % 4 = 0 ∧ nibbleLength n ≤ 60 := by
  have := n.isLt
  rw [nibbleLength]
  omega

theorem lengthNibble_nibbleLength (n : BitVec 4) : lengthNibble (nibbleLength n) = n := by
  have := n.isLt
  apply BitVec.eq_of_toNat_eq
  rw [nibbleLength, lengthNibble_toNat (by omega)]
  omega

end Sys2Proof.Machine
end

