-- ==== Sys2Proof/Laws/Memory.lean ====
section
/-! SUPPORT. The laws of buffers: a read after a write, the canonical form, and what a run of writes or
reads does. -/

namespace Sys2Proof.Machine

@[simp] theorem op_bind_ok {α β : Type} (x : α) (f : α → Op β) : (Except.ok x >>= f) = f x := rfl

@[simp] theorem op_bind_error {α β : Type} (e : Halt) (f : α → Op β) :
    ((Except.error e : Op α) >>= f) = .error e := rfl

@[simp] theorem op_pure {α : Type} (x : α) : (pure x : Op α) = .ok x := rfl

/-! ### Cells -/

@[simp] theorem cellAt_nil (a : Nat) : cellAt [] a = Memory.unlisted := rfl

theorem cellAt_cons (a' : Nat) (v : Byte) (rest : List Host.Cell) (a : Nat) :
    cellAt ((a', v) :: rest) a = if a' = a then v else cellAt rest a := rfl

theorem cellAt_of_lt {len lo : Nat} {cs : List Host.Cell} (h : cellsWf len lo cs = true) {a : Nat}
    (ha : a < lo) : cellAt cs a = Memory.unlisted := by
  induction cs generalizing lo with
  | nil => rfl
  | cons c cs ih =>
    obtain ⟨a', v⟩ := c
    simp only [cellsWf, Bool.and_eq_true, decide_eq_true_eq] at h
    rw [cellAt_cons, if_neg (by omega)]
    exact ih h.2 (by omega)

theorem cellsWf_mono {len lo lo' : Nat} {cs : List Host.Cell} (h : cellsWf len lo cs = true)
    (hl : lo' ≤ lo) : cellsWf len lo' cs = true := by
  cases cs with
  | nil => rfl
  | cons c cs =>
    simp only [cellsWf, Bool.and_eq_true, decide_eq_true_eq] at h ⊢
    exact ⟨⟨⟨by omega, h.1.1.2⟩, h.1.2⟩, h.2⟩

theorem cellsWf_setCell {len lo : Nat} {cs : List Host.Cell} (h : cellsWf len lo cs = true) {a : Nat}
    (v : Byte) (hlo : lo ≤ a) (ha : a < len) : cellsWf len lo (setCell cs a v) = true := by
  induction cs generalizing lo with
  | nil =>
    rw [setCell]
    split
    · rfl
    · simp_all [cellsWf]
  | cons c cs ih =>
    obtain ⟨a', v'⟩ := c
    have h' := h
    simp only [cellsWf, Bool.and_eq_true, decide_eq_true_eq] at h
    obtain ⟨⟨⟨h1, h2⟩, h3⟩, h4⟩ := h
    rw [setCell]
    split
    · split
      · exact h'
      · rename_i hlt hv
        simp only [cellsWf, Bool.and_eq_true, decide_eq_true_eq]
        exact ⟨⟨⟨hlo, ha⟩, hv⟩, ⟨⟨by omega, h2⟩, h3⟩, h4⟩
    · split
      · split
        · exact cellsWf_mono h4 (by omega)
        · rename_i heq hv
          subst heq
          simp only [cellsWf, Bool.and_eq_true, decide_eq_true_eq]
          exact ⟨⟨⟨hlo, ha⟩, hv⟩, h4⟩
      · simp only [cellsWf, Bool.and_eq_true, decide_eq_true_eq]
        exact ⟨⟨⟨h1, h2⟩, h3⟩, ih h4 (by omega)⟩

theorem cellAt_setCell_same {len lo : Nat} {cs : List Host.Cell} (h : cellsWf len lo cs = true) (a : Nat)
    (v : Byte) : cellAt (setCell cs a v) a = v := by
  induction cs generalizing lo with
  | nil =>
    rw [setCell]
    split
    · simp_all [cellAt]
    · simp [cellAt]
  | cons c cs ih =>
    obtain ⟨a', v'⟩ := c
    have h' := h
    simp only [cellsWf, Bool.and_eq_true, decide_eq_true_eq] at h
    rw [setCell]
    split
    · split
      · rename_i hlt hv
        rw [cellAt_cons, if_neg (by omega), cellAt_of_lt h.2 (by omega), hv]
      · rw [cellAt_cons, if_pos rfl]
    · split
      · split
        · rename_i heq hv
          rw [cellAt_of_lt h.2 (by omega), hv]
        · rw [cellAt_cons, if_pos rfl]
      · rename_i hne
        rw [cellAt_cons, if_neg (fun e => hne e.symm)]
        exact ih h.2

theorem cellAt_setCell_other (cs : List Host.Cell) {a b : Nat} (v : Byte) (hne : b ≠ a) :
    cellAt (setCell cs a v) b = cellAt cs b := by
  induction cs with
  | nil =>
    rw [setCell]
    split
    · rfl
    · rw [cellAt_cons, if_neg (fun e => hne e.symm)]
  | cons c cs ih =>
    obtain ⟨a', v'⟩ := c
    rw [setCell]
    split
    · split
      · rfl
      · rw [cellAt_cons, if_neg (fun e => hne e.symm)]
    · split
      · rename_i heq
        subst heq
        split
        · rw [cellAt_cons, if_neg (fun e => hne e.symm)]
        · rw [cellAt_cons, cellAt_cons, if_neg (fun e => hne e.symm), if_neg (fun e => hne e.symm)]
      · rw [cellAt_cons, cellAt_cons, ih]

theorem cells_ext {len lo : Nat} {cs ds : List Host.Cell} (hc : cellsWf len lo cs = true)
    (hd : cellsWf len lo ds = true) (h : ∀ a, cellAt cs a = cellAt ds a) : cs = ds := by
  induction cs generalizing lo ds with
  | nil =>
    cases ds with
    | nil => rfl
    | cons d ds =>
      obtain ⟨a, v⟩ := d
      simp only [cellsWf, Bool.and_eq_true, decide_eq_true_eq] at hd
      have := h a
      rw [cellAt_nil, cellAt_cons, if_pos rfl] at this
      exact absurd this.symm hd.1.2
  | cons c cs ih =>
    obtain ⟨a, v⟩ := c
    have hc' := hc
    simp only [cellsWf, Bool.and_eq_true, decide_eq_true_eq] at hc
    cases ds with
    | nil =>
      have := h a
      rw [cellAt_cons, if_pos rfl, cellAt_nil] at this
      exact absurd this hc.1.2
    | cons d ds =>
      obtain ⟨b, w⟩ := d
      have hd' := hd
      simp only [cellsWf, Bool.and_eq_true, decide_eq_true_eq] at hd
      have hab : a = b := by
        rcases Nat.lt_trichotomy a b with hlt | heq | hgt
        · have := h a
          rw [cellAt_cons, if_pos rfl, cellAt_cons, if_neg (by omega), cellAt_of_lt hd.2 (by omega)] at this
          exact absurd this hc.1.2
        · exact heq
        · have := h b
          rw [cellAt_cons, if_neg (by omega), cellAt_of_lt hc.2 (by omega), cellAt_cons, if_pos rfl] at this
          exact absurd this.symm hd.1.2
      subst hab
      have hv := h a
      rw [cellAt_cons, cellAt_cons, if_pos rfl, if_pos rfl] at hv
      subst hv
      congr 1
      refine ih hc.2 hd.2 fun x => ?_
      by_cases hx : x < a + 1
      · rw [cellAt_of_lt hc.2 hx, cellAt_of_lt hd.2 hx]
      · have := h x
        rwa [cellAt_cons, cellAt_cons, if_neg (by omega), if_neg (by omega)] at this

/-! ### One byte -/

theorem Memory.get_of_lt {m : Memory} {a : Nat} (h : a < m.len) : m.get a = .ok (cellAt m.cells a) := by
  rw [Memory.get, if_pos h]

theorem Memory.get_of_ge {m : Memory} {a : Nat} (h : m.len ≤ a) :
    m.get a = .error (.fault .outsideBuffer) := by
  rw [Memory.get, if_neg (by omega)]

theorem Memory.get_ok {m : Memory} {a : Nat} {v : Byte} (h : m.get a = .ok v) :
    a < m.len ∧ cellAt m.cells a = v := by
  rw [Memory.get] at h
  split at h
  · exact ⟨‹_›, by simpa using h⟩
  · exact absurd h (by simp)

/-- Everything a store of one byte can do. -/
theorem Memory.set_cases (m : Memory) (a : Nat) (v : Byte) :
    (a < m.len ∧ m.set a v = .ok { m with cells := setCell m.cells a v }) ∨
    (m.len ≤ a ∧ m.set a v = .error (.fault .outsideBuffer)) := by
  rw [Memory.set]
  split
  · exact .inl ⟨‹_›, rfl⟩
  · exact .inr ⟨by omega, rfl⟩

theorem Memory.set_of_lt {m : Memory} {a : Nat} (v : Byte) (h : a < m.len) :
    m.set a v = .ok { m with cells := setCell m.cells a v } := by rw [Memory.set, if_pos h]

theorem Memory.set_ok {m m' : Memory} {a : Nat} {v : Byte} (h : m.set a v = .ok m') :
    a < m.len ∧ m' = { m with cells := setCell m.cells a v } := by
  obtain ⟨ha, he⟩ | ⟨-, he⟩ := m.set_cases a v
  · exact ⟨ha, by simpa using (h.symm.trans he)⟩
  · exact absurd (h.symm.trans he) (by simp)

/-- A store keeps the canonical form. -/
theorem Memory.set_wf {m m' : Memory} {a : Nat} {v : Byte} (hw : m.wf = true) (h : m.set a v = .ok m') :
    m'.wf = true := by
  obtain ⟨ha, rfl⟩ := Memory.set_ok h
  exact cellsWf_setCell hw v (by omega) ha

theorem Memory.set_len {m m' : Memory} {a : Nat} {v : Byte} (h : m.set a v = .ok m') :
    m'.len = m.len := by obtain ⟨-, rfl⟩ := Memory.set_ok h; rfl

/-- A read after a write to the same address gives the value written. -/
theorem Memory.get_set_same {m m' : Memory} {a : Nat} {v : Byte} (hw : m.wf = true)
    (h : m.set a v = .ok m') : m'.get a = .ok v := by
  obtain ⟨ha, rfl⟩ := Memory.set_ok h
  rw [Memory.get_of_lt (by exact ha)]
  exact congrArg _ (cellAt_setCell_same hw a v)

/-- A write leaves every other address alone. -/
theorem Memory.get_set_other {m m' : Memory} {a b : Nat} {v : Byte} (hne : b ≠ a)
    (h : m.set a v = .ok m') : m'.get b = m.get b := by
  obtain ⟨-, rfl⟩ := Memory.set_ok h
  rw [Memory.get, Memory.get]
  simp only [cellAt_setCell_other _ v hne]

/-- Buffers in canonical form are equal when they are as long and every byte reads the same. -/
theorem Memory.ext_of_get {m n : Memory} (hm : m.wf = true) (hn : n.wf = true) (hl : m.len = n.len)
    (h : ∀ a, a < m.len → m.get a = n.get a) : m = n := by
  obtain ⟨ml, mc⟩ := m
  obtain ⟨nl, nc⟩ := n
  obtain rfl : ml = nl := hl
  congr 1
  refine cells_ext hm hn fun a => ?_
  by_cases ha : a < ml
  · have := h a ha
    rw [Memory.get_of_lt (by exact ha), Memory.get_of_lt (by exact ha)] at this
    simpa using this
  · have high : ∀ {lo : Nat} {cs : List Host.Cell}, cellsWf ml lo cs = true →
        cellAt cs a = Memory.unlisted := by
      intro lo cs
      induction cs generalizing lo with
      | nil => intro _; rfl
      | cons c cs ih =>
        obtain ⟨a', v⟩ := c
        intro hc
        simp only [cellsWf, Bool.and_eq_true, decide_eq_true_eq] at hc
        rw [cellAt_cons, if_neg (by omega)]
        exact ih hc.2
    rw [high hm, high hn]

/-! ### Runs of bytes -/

theorem Memory.writeBytes_wf {m m' : Memory} {a : Nat} {bs : List Byte} (hw : m.wf = true)
    (h : m.writeBytes a bs = .ok m') : m'.wf = true := by
  induction bs generalizing m a with
  | nil => simpa [Memory.writeBytes] using (by simpa [Memory.writeBytes] using h : m = m') ▸ hw
  | cons b bs ih =>
    rw [Memory.writeBytes] at h
    cases hs : m.set a b with
    | error e => rw [hs] at h; exact absurd h (by simp)
    | ok m1 => rw [hs] at h; exact ih (Memory.set_wf hw hs) h

theorem Memory.writeBytes_len {m m' : Memory} {a : Nat} {bs : List Byte}
    (h : m.writeBytes a bs = .ok m') : m'.len = m.len := by
  induction bs generalizing m a with
  | nil => exact congrArg Memory.len (by simpa [Memory.writeBytes] using h.symm)
  | cons b bs ih =>
    rw [Memory.writeBytes] at h
    cases hs : m.set a b with
    | error e => rw [hs] at h; exact absurd h (by simp)
    | ok m1 => rw [hs] at h; rw [ih h, Memory.set_len hs]

/-- A run of stores that fits in the buffer succeeds. -/
theorem Memory.writeBytes_fits {m : Memory} {a : Nat} {bs : List Byte} (h : a + bs.length ≤ m.len) :
    ∃ m', m.writeBytes a bs = .ok m' := by
  induction bs generalizing m a with
  | nil => exact ⟨m, rfl⟩
  | cons b bs ih =>
    rw [List.length_cons] at h
    rw [Memory.writeBytes, Memory.set_of_lt b (by omega)]
    exact ih (by show a + 1 + bs.length ≤ m.len; omega)

/-- Outside the run every byte reads as before. -/
theorem Memory.get_writeBytes_other {m m' : Memory} {a x : Nat} {bs : List Byte}
    (h : m.writeBytes a bs = .ok m') (hx : x < a ∨ a + bs.length ≤ x) : m'.get x = m.get x := by
  induction bs generalizing m a with
  | nil =>
    obtain rfl : m = m' := by simpa [Memory.writeBytes] using h
    rfl
  | cons b bs ih =>
    rw [List.length_cons] at hx
    rw [Memory.writeBytes] at h
    cases hs : m.set a b with
    | error e => rw [hs] at h; exact absurd h (by simp)
    | ok m1 => rw [hs] at h; rw [ih h (by omega), Memory.get_set_other (by omega) hs]

/-- Inside the run every byte reads as written. -/
theorem Memory.get_writeBytes_same {m m' : Memory} {a k : Nat} {bs : List Byte} (hw : m.wf = true)
    (h : m.writeBytes a bs = .ok m') (hk : k < bs.length) : m'.get (a + k) = .ok bs[k] := by
  induction bs generalizing m a k with
  | nil => exact absurd hk (by simp)
  | cons b bs ih =>
    rw [Memory.writeBytes] at h
    cases hs : m.set a b with
    | error e => rw [hs] at h; exact absurd h (by simp)
    | ok m1 =>
      rw [hs] at h
      cases k with
      | zero =>
        rw [Nat.add_zero, Memory.get_writeBytes_other h (by omega), Memory.get_set_same hw hs]
        rfl
      | succ k =>
        rw [List.length_cons] at hk
        have := ih (Memory.set_wf hw hs) h (k := k) (by omega)
        rw [show a + (k + 1) = a + 1 + k by omega, this]
        rfl

theorem Memory.writeBytes_append (m : Memory) (a : Nat) (bs cs : List Byte) :
    m.writeBytes a (bs ++ cs) = (m.writeBytes a bs >>= fun m' => m'.writeBytes (a + bs.length) cs) := by
  induction bs generalizing m a with
  | nil => simp [Memory.writeBytes]
  | cons b bs ih =>
    rw [List.cons_append, Memory.writeBytes, Memory.writeBytes]
    cases hs : m.set a b with
    | error e => rfl
    | ok m1 =>
      simp only [op_bind_ok]
      rw [ih, List.length_cons, show a + 1 + bs.length = a + (bs.length + 1) by omega]

/-- Reading a run: it has the length asked for, and each byte is the buffer's. -/
theorem Memory.readBytes_ok {m : Memory} {a n : Nat} {bs : List Byte} (h : m.readBytes a n = .ok bs) :
    bs.length = n ∧ ∀ k (hk : k < bs.length), m.get (a + k) = .ok bs[k] := by
  induction n generalizing a bs with
  | zero => obtain rfl : [] = bs := by simpa [Memory.readBytes] using h
            simp
  | succ n ih =>
    rw [Memory.readBytes] at h
    cases hg : m.get a with
    | error e => rw [hg] at h; exact absurd h (by simp)
    | ok b =>
      rw [hg] at h
      cases hr : m.readBytes (a + 1) n with
      | error e => rw [hr] at h; exact absurd h (by simp)
      | ok bs1 =>
        rw [hr] at h
        obtain rfl : b :: bs1 = bs := by simpa using h
        obtain ⟨hl, hb⟩ := ih hr
        refine ⟨by simp [hl], fun k hk => ?_⟩
        cases k with
        | zero => exact hg
        | succ k =>
          have := hb k (by simpa using hk)
          rw [show a + (k + 1) = a + 1 + k by omega, this]
          rfl

/-- Bytes that stand in the buffer are what a run of reads gives. -/
theorem Memory.readBytes_eq {m : Memory} {a : Nat} {bs : List Byte}
    (h : ∀ k (hk : k < bs.length), m.get (a + k) = .ok bs[k]) : m.readBytes a bs.length = .ok bs := by
  induction bs generalizing a with
  | nil => rfl
  | cons b bs ih =>
    rw [List.length_cons, Memory.readBytes, show m.get a = .ok b from h 0 (by simp),
      ih (fun k hk => by
        have := h (k + 1) (by simpa using hk)
        rw [show a + 1 + k = a + (k + 1) by omega, this]
        rfl)]
    rfl

/-- A run of reads that lies in the buffer succeeds. -/
theorem Memory.readBytes_fits {m : Memory} {a n : Nat} (h : a + n ≤ m.len) :
    ∃ bs, m.readBytes a n = .ok bs := by
  induction n generalizing a with
  | zero => exact ⟨[], rfl⟩
  | succ n ih =>
    obtain ⟨bs, hb⟩ := ih (a := a + 1) (by omega)
    exact ⟨cellAt m.cells a :: bs, by rw [Memory.readBytes, Memory.get_of_lt (by omega), hb]; rfl⟩

/-! ### Fresh buffers and buffers made of bytes -/

theorem Memory.zeros_wf (n : Nat) : (Memory.zeros n).wf = true := rfl

theorem Memory.empty_wf : Memory.empty.wf = true := rfl

/-- The buffers after reset are in canonical form. -/
theorem State.reset_buffers_wf : State.reset.src.wf = true ∧ State.reset.dst.wf = true := ⟨rfl, rfl⟩

theorem cellsWf_cellsFrom (a : Nat) (bs : List Byte) {len : Nat} (h : a + bs.length ≤ len) :
    cellsWf len a (cellsFrom a bs) = true := by
  induction bs generalizing a with
  | nil => rfl
  | cons b bs ih =>
    rw [List.length_cons] at h
    have hr := ih (a + 1) (by omega)
    rw [cellsFrom]
    split
    · exact cellsWf_mono hr (by omega)
    · simp only [cellsWf, Bool.and_eq_true, decide_eq_true_eq]
      exact ⟨⟨⟨Nat.le_refl a, by omega⟩, ‹_›⟩, hr⟩

theorem Memory.ofBytes_wf (bs : List Byte) : (Memory.ofBytes bs).wf = true :=
  cellsWf_cellsFrom 0 bs (by simp [Memory.ofBytes])

theorem cellAt_cellsFrom (a k : Nat) (bs : List Byte) (h : k < bs.length) :
    cellAt (cellsFrom a bs) (a + k) = bs[k] := by
  induction bs generalizing a k with
  | nil => exact absurd h (by simp)
  | cons b bs ih =>
    have low : cellAt (cellsFrom (a + 1) bs) a = Memory.unlisted :=
      cellAt_of_lt (cellsWf_cellsFrom (a + 1) bs (Nat.le_refl _)) (by omega)
    cases k with
    | zero =>
      rw [cellsFrom]
      split
      · exact low.trans ‹b = _›.symm
      · exact (cellAt_cons a b _ a).trans (if_pos rfl)
    | succ k =>
      have := ih (a + 1) k (by simpa using h)
      rw [cellsFrom, show a + (k + 1) = a + 1 + k by omega]
      split
      · rw [this]; rfl
      · rw [cellAt_cons, if_neg (by omega), this]; rfl

/-- A buffer made of bytes holds them. -/
theorem Memory.get_ofBytes (bs : List Byte) (k : Nat) (h : k < bs.length) :
    (Memory.ofBytes bs).get k = .ok bs[k] := by
  rw [Memory.get_of_lt (by exact h)]
  have := cellAt_cellsFrom 0 k bs h
  rw [Nat.zero_add] at this
  exact congrArg _ this

end Sys2Proof.Machine
end

