-- ==== Sys2Proof/Laws/State.lean ====
section
/-! SUPPORT. What each named update of the state does to each field: one lemma a field, so that no proof
unfolds a record update. -/

namespace Sys2Proof.Machine

/-! ### `State.raise` -/

@[simp] theorem State.raise_op (k : ErrorKind) (s : State) :
    (s.raise k).op = s.op := rfl

@[simp] theorem State.raise_src (k : ErrorKind) (s : State) :
    (s.raise k).src = s.src := rfl

@[simp] theorem State.raise_dst (k : ErrorKind) (s : State) :
    (s.raise k).dst = s.dst := rfl

@[simp] theorem State.raise_offset (k : ErrorKind) (s : State) :
    (s.raise k).offset = s.offset := rfl

@[simp] theorem State.raise_fields (k : ErrorKind) (s : State) :
    (s.raise k).fields = s.fields := rfl

@[simp] theorem State.raise_header (k : ErrorKind) (s : State) :
    (s.raise k).header = s.header := rfl

@[simp] theorem State.raise_bufPresent (k : ErrorKind) (s : State) :
    (s.raise k).bufPresent = s.bufPresent := rfl

@[simp] theorem State.raise_ipctx (k : ErrorKind) (s : State) :
    (s.raise k).ipctx = s.ipctx := rfl

@[simp] theorem State.raise_status (k : ErrorKind) (s : State) :
    (s.raise k).status = some (.error k) := rfl

@[simp] theorem State.raise_resultHeader (k : ErrorKind) (s : State) :
    (s.raise k).resultHeader = none := rfl

@[simp] theorem State.raise_resultBytes (k : ErrorKind) (s : State) :
    (s.raise k).resultBytes = none := rfl

@[simp] theorem State.raise_phase (k : ErrorKind) (s : State) :
    (s.raise k).phase = .idle := rfl

@[simp] theorem State.raise_host (k : ErrorKind) (s : State) :
    (s.raise k).host = s.host := rfl

@[simp] theorem State.raise_resetIn (k : ErrorKind) (s : State) :
    (s.raise k).resetIn = s.resetIn := rfl

@[simp] theorem State.raise_freeIndex (k : ErrorKind) (s : State) :
    (s.raise k).freeIndex = s.freeIndex := rfl

/-! ### `State.endHeader` -/

@[simp] theorem State.endHeader_op (h : Header) (s : State) :
    (s.endHeader h).op = s.op := rfl

@[simp] theorem State.endHeader_src (h : Header) (s : State) :
    (s.endHeader h).src = s.src := rfl

@[simp] theorem State.endHeader_dst (h : Header) (s : State) :
    (s.endHeader h).dst = s.dst := rfl

@[simp] theorem State.endHeader_offset (h : Header) (s : State) :
    (s.endHeader h).offset = s.offset := rfl

@[simp] theorem State.endHeader_fields (h : Header) (s : State) :
    (s.endHeader h).fields = s.fields := rfl

@[simp] theorem State.endHeader_header (h : Header) (s : State) :
    (s.endHeader h).header = s.header := rfl

@[simp] theorem State.endHeader_bufPresent (h : Header) (s : State) :
    (s.endHeader h).bufPresent = s.bufPresent := rfl

@[simp] theorem State.endHeader_ipctx (h : Header) (s : State) :
    (s.endHeader h).ipctx = s.ipctx := rfl

@[simp] theorem State.endHeader_status (h : Header) (s : State) :
    (s.endHeader h).status = some .ok := rfl

@[simp] theorem State.endHeader_resultHeader (h : Header) (s : State) :
    (s.endHeader h).resultHeader = some h := rfl

@[simp] theorem State.endHeader_resultBytes (h : Header) (s : State) :
    (s.endHeader h).resultBytes = none := rfl

@[simp] theorem State.endHeader_phase (h : Header) (s : State) :
    (s.endHeader h).phase = .idle := rfl

@[simp] theorem State.endHeader_host (h : Header) (s : State) :
    (s.endHeader h).host = s.host := rfl

@[simp] theorem State.endHeader_resetIn (h : Header) (s : State) :
    (s.endHeader h).resetIn = s.resetIn := rfl

@[simp] theorem State.endHeader_freeIndex (h : Header) (s : State) :
    (s.endHeader h).freeIndex = s.freeIndex := rfl

/-! ### `State.endBytes` -/

@[simp] theorem State.endBytes_op (m : Memory) (s : State) :
    (s.endBytes m).op = s.op := rfl

@[simp] theorem State.endBytes_src (m : Memory) (s : State) :
    (s.endBytes m).src = s.src := rfl

@[simp] theorem State.endBytes_dst (m : Memory) (s : State) :
    (s.endBytes m).dst = if s.bufPresent then m else s.dst := rfl

@[simp] theorem State.endBytes_offset (m : Memory) (s : State) :
    (s.endBytes m).offset = s.offset := rfl

@[simp] theorem State.endBytes_fields (m : Memory) (s : State) :
    (s.endBytes m).fields = s.fields := rfl

@[simp] theorem State.endBytes_header (m : Memory) (s : State) :
    (s.endBytes m).header = s.header := rfl

@[simp] theorem State.endBytes_bufPresent (m : Memory) (s : State) :
    (s.endBytes m).bufPresent = s.bufPresent := rfl

@[simp] theorem State.endBytes_ipctx (m : Memory) (s : State) :
    (s.endBytes m).ipctx = s.ipctx := rfl

@[simp] theorem State.endBytes_status (m : Memory) (s : State) :
    (s.endBytes m).status = some .ok := rfl

@[simp] theorem State.endBytes_resultHeader (m : Memory) (s : State) :
    (s.endBytes m).resultHeader = none := rfl

@[simp] theorem State.endBytes_resultBytes (m : Memory) (s : State) :
    (s.endBytes m).resultBytes = some m := rfl

@[simp] theorem State.endBytes_phase (m : Memory) (s : State) :
    (s.endBytes m).phase = .idle := rfl

@[simp] theorem State.endBytes_host (m : Memory) (s : State) :
    (s.endBytes m).host = s.host := rfl

@[simp] theorem State.endBytes_resetIn (m : Memory) (s : State) :
    (s.endBytes m).resetIn = s.resetIn := rfl

@[simp] theorem State.endBytes_freeIndex (m : Memory) (s : State) :
    (s.endBytes m).freeIndex = s.freeIndex := rfl

/-! ### `State.setPhase` -/

@[simp] theorem State.setPhase_op (p : Phase) (s : State) :
    (s.setPhase p).op = s.op := rfl

@[simp] theorem State.setPhase_src (p : Phase) (s : State) :
    (s.setPhase p).src = s.src := rfl

@[simp] theorem State.setPhase_dst (p : Phase) (s : State) :
    (s.setPhase p).dst = s.dst := rfl

@[simp] theorem State.setPhase_offset (p : Phase) (s : State) :
    (s.setPhase p).offset = s.offset := rfl

@[simp] theorem State.setPhase_fields (p : Phase) (s : State) :
    (s.setPhase p).fields = s.fields := rfl

@[simp] theorem State.setPhase_header (p : Phase) (s : State) :
    (s.setPhase p).header = s.header := rfl

@[simp] theorem State.setPhase_bufPresent (p : Phase) (s : State) :
    (s.setPhase p).bufPresent = s.bufPresent := rfl

@[simp] theorem State.setPhase_ipctx (p : Phase) (s : State) :
    (s.setPhase p).ipctx = s.ipctx := rfl

@[simp] theorem State.setPhase_status (p : Phase) (s : State) :
    (s.setPhase p).status = s.status := rfl

@[simp] theorem State.setPhase_resultHeader (p : Phase) (s : State) :
    (s.setPhase p).resultHeader = s.resultHeader := rfl

@[simp] theorem State.setPhase_resultBytes (p : Phase) (s : State) :
    (s.setPhase p).resultBytes = s.resultBytes := rfl

@[simp] theorem State.setPhase_phase (p : Phase) (s : State) :
    (s.setPhase p).phase = p := rfl

@[simp] theorem State.setPhase_host (p : Phase) (s : State) :
    (s.setPhase p).host = s.host := rfl

@[simp] theorem State.setPhase_resetIn (p : Phase) (s : State) :
    (s.setPhase p).resetIn = s.resetIn := rfl

@[simp] theorem State.setPhase_freeIndex (p : Phase) (s : State) :
    (s.setPhase p).freeIndex = s.freeIndex := rfl

/-! ### `State.clear` -/

@[simp] theorem State.clear_op (s : State) :
    s.clear.op = s.op := rfl

@[simp] theorem State.clear_src (s : State) :
    s.clear.src = s.src := rfl

@[simp] theorem State.clear_dst (s : State) :
    s.clear.dst = s.dst := rfl

@[simp] theorem State.clear_offset (s : State) :
    s.clear.offset = s.offset := rfl

@[simp] theorem State.clear_fields (s : State) :
    s.clear.fields = s.fields := rfl

@[simp] theorem State.clear_header (s : State) :
    s.clear.header = s.header := rfl

@[simp] theorem State.clear_bufPresent (s : State) :
    s.clear.bufPresent = s.bufPresent := rfl

@[simp] theorem State.clear_ipctx (s : State) :
    s.clear.ipctx = s.ipctx := rfl

@[simp] theorem State.clear_status (s : State) :
    s.clear.status = none := rfl

@[simp] theorem State.clear_resultHeader (s : State) :
    s.clear.resultHeader = none := rfl

@[simp] theorem State.clear_resultBytes (s : State) :
    s.clear.resultBytes = none := rfl

@[simp] theorem State.clear_phase (s : State) :
    s.clear.phase = .idle := rfl

@[simp] theorem State.clear_host (s : State) :
    s.clear.host = s.host := rfl

@[simp] theorem State.clear_resetIn (s : State) :
    s.clear.resetIn = none := rfl

@[simp] theorem State.clear_freeIndex (s : State) :
    s.clear.freeIndex = s.freeIndex := rfl

end Sys2Proof.Machine
end

