-- ==== Sys2Proof/Laws/Ops.lean ====
section
/-! SUPPORT. What each shared operation can do: how a computation ends an operation, the checks of a TLV
record, the turns of the option loop, the emission of a record. -/

namespace Sys2Proof.Machine

/-! ### Ends of an operation -/

@[simp] theorem endWith_ok {α : Type} (x : α) (fin : α → State → State) (s : State) :
    endWith (.ok x) fin s = .next (fin x s) := rfl

@[simp] theorem endWith_raise {α : Type} (k : ErrorKind) (fin : α → State → State) (s : State) :
    endWith (.error (.raise k)) fin s = .next (s.raise k) := rfl

@[simp] theorem endWith_fault {α : Type} (f : Fault) (fin : α → State → State) (s : State) :
    endWith (.error (.fault f)) fin s = .fault f := rfl

@[simp] theorem halted_raise (k : ErrorKind) (s : State) : halted (.raise k) s = .next (s.raise k) := rfl

@[simp] theorem halted_fault (f : Fault) (s : State) : halted (.fault f) s = .fault f := rfl

/-- Everything an operation that answers a next state can have done. -/
theorem endWith_next {α : Type} {r : Op α} {fin : α → State → State} {s t : State}
    (h : endWith r fin s = .next t) :
    (∃ x, r = .ok x ∧ t = fin x s) ∨ (∃ k, r = .error (.raise k) ∧ t = s.raise k) := by
  cases r with
  | ok x => exact .inl ⟨x, rfl, by simpa using h.symm⟩
  | error e =>
    cases e with
    | raise k => exact .inr ⟨k, rfl, by simpa using h.symm⟩
    | fault f => exact absurd h (by simp)

/-! ### Hand-overs of a result -/

@[simp] theorem withResult_some {α : Type} (x : α) (invalid : Nat → α) (use : α → State → State)
    (s : State) : withResult (some x) invalid use s = .next (use x s) := rfl

@[simp] theorem withResult_none {α : Type} (invalid : Nat → α) (use : α → State → State) (s : State) :
    withResult none invalid use s =
      .next (use (invalid s.freeIndex) { s with freeIndex := s.freeIndex + 1 }) := rfl

/-- A hand-over always completes, with the result or with some value in its place. -/
theorem withResult_next {α : Type} (r : Option α) (invalid : Nat → α) (use : α → State → State)
    (s : State) : ∃ x n, withResult r invalid use s = .next (use x { s with freeIndex := n }) ∧
      ∀ y, r = some y → x = y ∧ n = s.freeIndex := by
  cases r with
  | some y => exact ⟨y, s.freeIndex, rfl, fun z h => ⟨by simpa using h, rfl⟩⟩
  | none => exact ⟨_, _, rfl, fun _ h => absurd h (by simp)⟩

theorem invalidBuffer_wf (n : Nat) : (invalidBuffer n).wf = true := Memory.ofBytes_wf _

/-! ### TLV checks -/

theorem checkTlv_ok {pos regionEnd len : Nat} (h2 : 2 ≤ len) (hle : pos + len ≤ regionEnd) :
    checkTlv pos regionEnd len = .ok () := by
  rw [checkTlv, if_neg (by omega), if_neg (by omega)]

theorem checkTlv_malformed {pos regionEnd len : Nat} (h : len < 2 ∨ regionEnd < pos + len) :
    checkTlv pos regionEnd len = raising .malformedOption := by
  rw [checkTlv]
  split
  · rfl
  · rw [if_pos (by omega)]

/-! ### The option loop of DECODE -/

@[simp] theorem loopDecode_of_lt {d : DecodeLocal} (s : State) (h : d.pos < d.regionEnd) :
    s.loopDecode d = s.setPhase (.decodeOptions d) := by rw [State.loopDecode, if_pos h]

@[simp] theorem loopDecode_of_ge {d : DecodeLocal} (s : State) (h : d.regionEnd ≤ d.pos) :
    s.loopDecode d = s.finishDecode d := by rw [State.loopDecode, if_neg (by omega)]

theorem readRecord_eol {src : Memory} {offset pos regionEnd : Nat}
    (h : src.get (offset + pos) = .ok Config.kindEol) :
    readRecord src offset pos regionEnd = .ok .stop := by
  rw [readRecord, Memory.read8, h]
  rfl

theorem readRecord_nop {src : Memory} {offset pos regionEnd : Nat}
    (h : src.get (offset + pos) = .ok Config.kindNop) :
    readRecord src offset pos regionEnd = .ok (.append ⟨Config.kindNop, []⟩ 1) := by
  rw [readRecord, Memory.read8, h]
  rfl

theorem readRecord_noLength {src : Memory} {offset pos regionEnd : Nat} {k : Byte}
    (h : src.get (offset + pos) = .ok k) (h0 : k ≠ Config.kindEol) (h1 : k ≠ Config.kindNop)
    (hr : regionEnd ≤ pos + 1) :
    readRecord src offset pos regionEnd = raising .malformedOption := by
  rw [readRecord, Memory.read8, h, op_bind_ok, if_neg h0, if_neg h1, if_pos hr]

theorem readRecord_badLength {src : Memory} {offset pos regionEnd : Nat} {k len : Byte}
    (h : src.get (offset + pos) = .ok k) (h0 : k ≠ Config.kindEol) (h1 : k ≠ Config.kindNop)
    (hr : pos + 1 < regionEnd) (hl : src.get (offset + pos + 1) = .ok len)
    (hb : len.toNat < 2 ∨ regionEnd < pos + len.toNat) :
    readRecord src offset pos regionEnd = raising .malformedOption := by
  rw [readRecord, Memory.read8, h, op_bind_ok, if_neg h0, if_neg h1, if_neg (by omega), Memory.read8, hl,
    op_bind_ok, checkTlv_malformed hb]
  rfl

theorem readRecord_tlv {src : Memory} {offset pos regionEnd : Nat} {k len : Byte} {value : List Byte}
    (h : src.get (offset + pos) = .ok k) (h0 : k ≠ Config.kindEol) (h1 : k ≠ Config.kindNop)
    (hl : src.get (offset + pos + 1) = .ok len) (h2 : 2 ≤ len.toNat) (hle : pos + len.toNat ≤ regionEnd)
    (hv : src.readBytes (offset + pos + 2) (len.toNat - 2) = .ok value) :
    readRecord src offset pos regionEnd = .ok (.append ⟨k, value⟩ len.toNat) := by
  rw [readRecord, Memory.read8, h, op_bind_ok, if_neg h0, if_neg h1, if_neg (by omega), Memory.read8, hl,
    op_bind_ok, checkTlv_ok h2 hle, op_bind_ok, hv]
  rfl

/-! ### The emission of ENCODE -/

/-- A record that fits in the destination is written. -/
theorem emit_fits {e : EncodeLocal} {bytes : List Byte}
    (h : e.start + e.pos + bytes.length ≤ e.out.len) :
    ∃ out, e.out.writeBytes (e.start + e.pos) bytes = .ok out ∧
      emit bytes e = .ok { e with out := out, pos := e.pos + bytes.length } := by
  obtain ⟨out, ho⟩ := Memory.writeBytes_fits h
  exact ⟨out, ho, by rw [emit, ho]; rfl⟩

/-- Everything the emission of a record does. -/
theorem emit_ok {e e' : EncodeLocal} {bytes : List Byte} (h : emit bytes e = .ok e') :
    e.out.writeBytes (e.start + e.pos) bytes = .ok e'.out ∧ e'.pos = e.pos + bytes.length ∧
      e'.start = e.start ∧ e'.pending = e.pending := by
  rw [emit] at h
  cases hw : e.out.writeBytes (e.start + e.pos) bytes with
  | error x => rw [hw] at h; exact absurd h (by simp)
  | ok out =>
    rw [hw] at h
    obtain rfl : { e with out := out, pos := e.pos + bytes.length } = e' := by simpa using h
    exact ⟨rfl, rfl, rfl, rfl⟩

/-! ### Wire lengths -/

theorem entryBytes_length (o : Entry) : (entryBytes o).length = optWireLen o := by
  rw [entryBytes, optWireLen]
  split
  · rfl
  · simp only [tlvBytes, List.length_cons]
    omega

theorem split2_length (w : Half) : (split2 w).length = 2 := rfl

theorem split4_length (w : Word) : (split4 w).length = 4 := rfl

theorem prefixBytes_length (p : FixedPrefix) : (prefixBytes p).length = 20 := rfl

theorem entriesWireLen_append (os ps : List Entry) :
    entriesWireLen (os ++ ps) = entriesWireLen os + entriesWireLen ps := by
  induction os with
  | nil => simp [entriesWireLen]
  | cons o os ih => simp [entriesWireLen, ih, Nat.add_assoc]

theorem optWireLen_pos (o : Entry) : 1 ≤ optWireLen o := by
  rw [optWireLen]
  split <;> omega

theorem length_le_entriesWireLen (os : List Entry) : os.length ≤ entriesWireLen os := by
  induction os with
  | nil => exact Nat.le_refl 0
  | cons o os ih =>
    have := optWireLen_pos o
    rw [List.length_cons, entriesWireLen]
    omega

theorem optWireLen_le_of_mem {o : Entry} {os : List Entry} (h : o ∈ os) :
    optWireLen o ≤ entriesWireLen os := by
  induction os with
  | nil => exact absurd h (by simp)
  | cons p os ih =>
    rw [entriesWireLen]
    obtain rfl | h := List.mem_cons.mp h
    · omega
    · have := ih h
      omega

end Sys2Proof.Machine
end

