-- ==== Sys2Proof/Laws/Encode.lean ====
section
/-! SUPPORT. ENCODE over a list of bytes: the entries as one run of writes, the whole header as one run of
writes, and the fresh destination. -/

namespace Sys2Proof.Machine

/-- Writing the entries one after another writes their bytes in one run. -/
theorem emitEntries_eq (start : Nat) (out : Memory) (pos : Nat) (os : List Entry) :
    emitEntries start out pos os =
      (out.writeBytes (start + pos) (entriesWire os) >>= fun m =>
        .ok (m, pos + (entriesWire os).length)) := by
  induction os generalizing out pos with
  | nil => rfl
  | cons o os ih =>
    rw [emitEntries, entriesWire, Memory.writeBytes_append]
    cases h : out.writeBytes (start + pos) (entryBytes o) with
    | error e => rfl
    | ok m =>
      simp only [op_bind_ok]
      rw [ih, Nat.add_assoc]
      simp [Nat.add_assoc]

/-- An ENCODE that has passed its checks writes the bytes of the Header in one run. -/
theorem encodeHeader_eq {h : Header} {bufPresent : Bool} {dst : Memory} {offset : Nat} {d : Memory × Nat}
    (hs : encodeStart h bufPresent dst offset = .ok d) :
    encodeHeader h bufPresent dst offset = d.1.writeBytes d.2 (headerWire h) := by
  rw [encodeHeader, hs, headerWire, Memory.writeBytes_append]
  simp only [op_bind_ok]
  cases hp : d.1.writeBytes d.2 (prefixBytes (prefixOfHeader h)) with
  | error e => rfl
  | ok m =>
    simp only [op_bind_ok]
    rw [emitEntries_eq, optionsWire, prefixBytes_length]
    by_cases ho : h.options = []
    · rw [if_pos ho, ho]
      simp [entriesWire, Memory.writeBytes]
    · simp only [if_neg ho, Memory.writeBytes_append]
      cases he : m.writeBytes (d.2 + 20) (entriesWire h.options) with
      | error e => rfl
      | ok m' => simp [Nat.add_assoc, Config.fixedLen]

/-- A valid Header that fits passes the two checks. -/
theorem encodeStart_ok {h : Header} {bufPresent : Bool} {dst : Memory} {offset : Nat} (hv : Valid h)
    (hf : bufPresent = true → offset + h.headerLength ≤ dst.len) :
    encodeStart h bufPresent dst offset = .ok (destination h bufPresent dst offset) := by
  rw [encodeStart, if_neg (by simpa using hv), if_neg (by rintro ⟨a, b⟩; have := hf a; omega)]

/-- The target range lies in the destination. -/
theorem destination_fits {h : Header} {bufPresent : Bool} {dst : Memory} {offset : Nat}
    (hf : bufPresent = true → offset + h.headerLength ≤ dst.len) :
    (destination h bufPresent dst offset).2 + h.headerLength ≤
      (destination h bufPresent dst offset).1.len := by
  rw [destination]
  split
  · exact hf ‹_›
  · simp [Memory.zeros]

theorem destination_wf (h : Header) (bufPresent : Bool) {dst : Memory} (offset : Nat)
    (hd : dst.wf = true) : (destination h bufPresent dst offset).1.wf = true := by
  rw [destination]
  split
  · exact hd
  · rfl

/-- ENCODE keeps the canonical form. -/
theorem encodeHeader_wf {h : Header} {bufPresent : Bool} {dst out : Memory} {offset : Nat}
    (hd : dst.wf = true) (he : encodeHeader h bufPresent dst offset = .ok out) : out.wf = true := by
  cases hs : encodeStart h bufPresent dst offset with
  | error x =>
    rw [encodeHeader, hs] at he
    exact absurd he (by simp)
  | ok d =>
    have hdest : d = destination h bufPresent dst offset := by
      rw [encodeStart] at hs
      split at hs
      · exact absurd hs (by simp)
      split at hs
      · exact absurd hs (by simp)
      · simpa using hs.symm
    rw [encodeHeader_eq hs] at he
    exact Memory.writeBytes_wf (hdest ▸ destination_wf h bufPresent offset hd) he

/-- A fresh buffer written from address 0 to its end holds exactly the bytes written. -/
theorem Memory.writeBytes_zeros {bs : List Byte} {m : Memory}
    (h : (Memory.zeros bs.length).writeBytes 0 bs = .ok m) : m = Memory.ofBytes bs := by
  have hl := Memory.writeBytes_len h
  refine Memory.ext_of_get (Memory.writeBytes_wf (Memory.zeros_wf _) h) (Memory.ofBytes_wf bs) hl
    fun a ha => ?_
  rw [hl] at ha
  have := Memory.get_writeBytes_same (Memory.zeros_wf _) h (k := a) ha
  rw [Nat.zero_add] at this
  exact this.trans (Memory.get_ofBytes bs a ha).symm

/-- The record written is read back, and no other byte changes. -/
theorem emit_spec {e : EncodeLocal} {bs : List Byte} (hw : e.out.wf = true)
    (h : e.start + e.pos + bs.length ≤ e.out.len) :
    ∃ out, emit bs e = .ok ⟨out, e.start, e.pos + bs.length, e.pending⟩ ∧ out.len = e.out.len ∧
      out.wf = true ∧ out.readBytes (e.start + e.pos) bs.length = .ok bs ∧
      ∀ a, a < e.start + e.pos ∨ e.start + e.pos + bs.length ≤ a → out.get a = e.out.get a := by
  obtain ⟨out, ho, he⟩ := emit_fits h
  exact ⟨out, he, Memory.writeBytes_len ho, Memory.writeBytes_wf hw ho,
    Memory.readBytes_eq fun k hk => Memory.get_writeBytes_same hw ho hk,
    fun a ha => Memory.get_writeBytes_other ho ha⟩

end Sys2Proof.Machine
end

