-- ==== Sys2Proof/Laws/PerInstr.lean ====
section
/-! SUPPORT. Statements made of every instruction, one lemma for each constructor (LAWS.json). Family
EncodedSize: a well-formed instruction encodes to as many bytes as it is said to take (spec/30_encoding.md R51,
R59, R62), and that is at least one. -/

namespace Sys2Proof.Laws

/-- A well-formed TLV record takes as many bytes as its length byte says. -/
theorem tlv_size {k len : Byte} {value : List Byte} (h : tlvWf len value = true) :
    (tlvBytes k len value).length = len.toNat ∧ 1 ≤ len.toNat := by
  simp only [tlvWf, Bool.and_eq_true, decide_eq_true_eq] at h
  rw [tlvBytes, List.length_cons, List.length_cons]
  omega

namespace EncodedSize

/-- A well-formed instruction encodes to `size` bytes, at least one. -/
def Statement (i : Instr) : Prop := i.wf = true → (Sys2Proof.encode i).length = i.size ∧ 1 ≤ i.size

theorem decode : Statement .decode := fun _ => ⟨rfl, by decide⟩

theorem construct : Statement .construct := fun _ => ⟨rfl, by decide⟩

theorem encode : Statement .encode := fun _ => ⟨rfl, by decide⟩

theorem checksum : Statement .checksum := fun _ => ⟨rfl, by decide⟩

theorem hdr20 (p : FixedPrefix) : Statement (.hdr20 p) := fun _ => ⟨rfl, Nat.one_le_iff_ne_zero.mpr (Nat.succ_ne_zero 19)⟩

theorem optEol : Statement .optEol := fun _ => ⟨rfl, by decide⟩

theorem optNop : Statement .optNop := fun _ => ⟨rfl, by decide⟩

theorem optTlvK02 (lo : BitVec 1) (len : Byte) (value : List Byte) :
    Statement (.optTlvK02 lo len value) := fun h => tlv_size h

theorem optTlvK04 (lo : BitVec 2) (len : Byte) (value : List Byte) :
    Statement (.optTlvK04 lo len value) := fun h => tlv_size h

theorem optTlvK08 (lo : BitVec 3) (len : Byte) (value : List Byte) :
    Statement (.optTlvK08 lo len value) := fun h => tlv_size h

theorem optTlvK10 (lo : BitVec 4) (len : Byte) (value : List Byte) :
    Statement (.optTlvK10 lo len value) := fun h => tlv_size h

theorem optTlvK20 (lo : BitVec 5) (len : Byte) (value : List Byte) :
    Statement (.optTlvK20 lo len value) := fun h => tlv_size h

theorem optTlvK40 (lo : BitVec 6) (len : Byte) (value : List Byte) :
    Statement (.optTlvK40 lo len value) := fun h => tlv_size h

theorem optTlvK80 (lo : BitVec 7) (len : Byte) (value : List Byte) :
    Statement (.optTlvK80 lo len value) := fun h => tlv_size h

end EncodedSize

end Sys2Proof.Laws
end

