-- ==== Sys2Proof/Laws/Region.lean ====
section
/-! SUPPORT. DECODE over a list of bytes: the fixed prefix and the option loop as functions of the header's
bytes, equal to what the model reads from SRC. -/

namespace Sys2Proof.Machine

/-! ### The fixed prefix -/

/-- Twenty bytes are a fixed prefix. -/
theorem decodeFixedPrefix_of_length {bs : List Byte} (h : bs.length = 20) :
    ∃ p, decodeFixedPrefix bs = .ok (p, []) := by
  match bs, h with
  | [_, _, _, _, _, _, _, _, _, _, _, _, _, _, _, _, _, _, _, _], _ => exact ⟨_, rfl⟩

theorem avail_lt {m : Memory} {offset n : Nat} : avail m offset < n ↔ m.len < offset + n := by
  rw [avail]
  omega

theorem decodeHeader_short {src : Memory} {offset : Nat} (h : src.len < offset + 20) :
    decodeHeader src offset = raising .bufferTooShort := by
  rw [decodeHeader, if_pos (avail_lt.mpr h)]

/-- What DECODE does after it has read the fixed prefix. -/
def decodeRest (src : Memory) (offset : Nat) (p : FixedPrefix) : Op Header :=
  if nibbleLength p.lengthNibble > 20 ∧ avail src offset < nibbleLength p.lengthNibble then
    raising .bufferTooShort
  else
    decodeLoop src offset (regionEndOf (nibbleLength p.lengthNibble))
        (regionEndOf (nibbleLength p.lengthNibble) - 20) 20 [] >>= fun opts =>
      .ok { headerOfPrefix p with options := opts }

/-- DECODE reads the fixed prefix as the prefix decoder reads its bytes. -/
theorem decodeHeader_eq {src : Memory} {offset : Nat} {bs : List Byte} {p : FixedPrefix}
    (h : src.readBytes offset 20 = .ok bs) (hp : decodeFixedPrefix bs = .ok (p, [])) :
    decodeHeader src offset = decodeRest src offset p := by
  obtain ⟨hl, hb⟩ := Memory.readBytes_ok h
  match bs, hl with
  | [b0, b1, b2, b3, b4, b5, b6, b7, b8, b9, b10, b11, b12, b13, b14, b15, b16, b17, b18, b19], _ =>
    have g := fun k (hk : k < 20) => hb k hk
    have hav : ¬ avail src offset < (Config.fixedLen : Nat) := fun hlt => by
      have h1 := (Memory.get_ok (g 19 (by decide))).1
      have h2 := avail_lt.mp hlt
      simp only [Config.fixedLen] at h2
      omega
    obtain rfl := (by simpa [decodeFixedPrefix] using hp.symm : p = _)
    have e : ∀ a b, src.get (offset + a + b) = src.get (offset + (a + b)) := fun a b => by
      rw [Nat.add_assoc]
    rw [decodeHeader, if_neg hav]
    simp only [Memory.read16, Memory.read32, Memory.read8, e, Nat.reduceAdd, g 0 (by decide),
      g 1 (by decide), g 2 (by decide), g 3 (by decide), g 4 (by decide), g 5 (by decide),
      g 6 (by decide), g 7 (by decide), g 8 (by decide), g 9 (by decide), g 10 (by decide),
      g 11 (by decide), g 12 (by decide), g 13 (by decide), g 14 (by decide), g 15 (by decide),
      g 16 (by decide), g 17 (by decide), g 18 (by decide), g 19 (by decide), op_bind_ok, op_pure]
    rfl

/-! ### The options region -/

/-- The option loop over the bytes of the region (R86 to R90), at most `turns` turns. -/
def parseRegion : Nat → List Byte → List Entry → Op (List Entry)
  | 0, _, opts => .ok opts
  | _ + 1, [], opts => .ok opts
  | turns + 1, k :: rest, opts =>
    if k = Config.kindEol then .ok opts
    else if k = Config.kindNop then parseRegion turns rest (opts ++ [⟨Config.kindNop, []⟩])
    else
      match rest with
      | [] => raising .malformedOption
      | len :: rest' =>
        if len.toNat < 2 ∨ rest'.length < len.toNat - 2 then raising .malformedOption
        else parseRegion turns (rest'.drop (len.toNat - 2))
          (opts ++ [⟨k, rest'.take (len.toNat - 2)⟩])

theorem parseRegion_cons (turns : Nat) (k : Byte) (rest : List Byte) (opts : List Entry) :
    parseRegion (turns + 1) (k :: rest) opts =
      if k = Config.kindEol then .ok opts
      else if k = Config.kindNop then parseRegion turns rest (opts ++ [⟨Config.kindNop, []⟩])
      else
        match rest with
        | [] => raising .malformedOption
        | len :: rest' =>
          if len.toNat < 2 ∨ rest'.length < len.toNat - 2 then raising .malformedOption
          else parseRegion turns (rest'.drop (len.toNat - 2))
            (opts ++ [⟨k, rest'.take (len.toNat - 2)⟩]) := rfl

/-- The loop of the model reads the region as `parseRegion` reads its bytes. -/
theorem decodeLoop_eq_parseRegion {src : Memory} {offset regionEnd : Nat} (turns pos : Nat)
    (bs : List Byte) (opts : List Entry) (hpos : pos + bs.length = regionEnd)
    (hb : ∀ k (hk : k < bs.length), src.get (offset + pos + k) = .ok bs[k]) :
    decodeLoop src offset regionEnd turns pos opts = parseRegion turns bs opts := by
  induction turns generalizing pos bs opts with
  | zero => rfl
  | succ turns ih =>
    match bs with
    | [] =>
      have : ¬ pos < regionEnd := by simpa using hpos.ge
      rw [decodeLoop, if_neg this]
      rfl
    | k :: rest =>
      rw [List.length_cons] at hpos
      have hk : src.get (offset + pos) = .ok k := hb 0 (by simp)
      rw [decodeLoop, if_pos (by omega), parseRegion_cons]
      by_cases h0 : k = Config.kindEol
      · subst h0
        rw [readRecord_eol hk, if_pos rfl]
        rfl
      by_cases h1 : k = Config.kindNop
      · subst h1
        rw [readRecord_nop hk, if_neg h0, if_pos rfl]
        refine ih (pos + 1) rest _ (by omega) fun j hj => ?_
        have := hb (j + 1) (by simpa using hj)
        rw [show offset + (pos + 1) + j = offset + pos + (j + 1) by omega, this]
        rfl
      rw [if_neg h0, if_neg h1]
      match rest with
      | [] =>
        rw [readRecord_noLength hk h0 h1 (by simp at hpos; omega)]
        rfl
      | len :: rest' =>
        rw [List.length_cons] at hpos
        have hl : src.get (offset + pos + 1) = .ok len := hb 1 (by simp)
        by_cases hbad : len.toNat < 2 ∨ rest'.length < len.toNat - 2
        · rw [readRecord_badLength hk h0 h1 (by omega) hl (by omega)]
          simp only [if_pos hbad]
          rfl
        · have hv : src.readBytes (offset + pos + 2) (len.toNat - 2) =
              .ok (rest'.take (len.toNat - 2)) := by
            have hlen : (rest'.take (len.toNat - 2)).length = len.toNat - 2 := by
              rw [List.length_take]; omega
            rw [← hlen, Memory.readBytes_eq fun j hj => ?_, hlen]
            rw [hlen] at hj
            have := hb (j + 2) (by simp only [List.length_cons]; omega)
            rw [show offset + pos + 2 + j = offset + pos + (j + 2) by omega, this]
            simp
          rw [readRecord_tlv hk h0 h1 hl (by omega) (by omega) hv]
          simp only [if_neg hbad]
          refine ih (pos + len.toNat) _ _ (by rw [List.length_drop]; omega) fun j hj => ?_
          rw [List.length_drop] at hj
          have := hb (j + len.toNat) (by simp only [List.length_cons]; omega)
          rw [show offset + (pos + len.toNat) + j = offset + pos + (j + len.toNat) by omega, this]
          obtain ⟨m, hm⟩ : ∃ m, len.toNat = m + 2 := ⟨len.toNat - 2, by omega⟩
          simp [hm, show j + (m + 2) = (j + m) + 2 by omega, Nat.add_comm j m]

/-- DECODE of a header whose region lies in SRC. -/
theorem decodeRest_region {src : Memory} {offset : Nat} {p : FixedPrefix} {region : List Byte}
    (hl : 20 ≤ nibbleLength p.lengthNibble)
    (hr : src.readBytes (offset + 20) (nibbleLength p.lengthNibble - 20) = .ok region)
    (hlen : offset + 20 ≤ src.len) :
    decodeRest src offset p =
      (parseRegion (nibbleLength p.lengthNibble - 20) region [] >>= fun opts =>
        .ok { headerOfPrefix p with options := opts }) := by
  obtain ⟨hlr, hb⟩ := Memory.readBytes_ok hr
  have hle : offset + nibbleLength p.lengthNibble ≤ src.len := by
    rcases Nat.eq_or_lt_of_le hl with heq | hlt
    · omega
    · have := (Memory.get_ok (hb (region.length - 1) (by omega))).1
      omega
  rw [decodeRest, if_neg (fun h => by have := avail_lt.mp h.2; omega), regionEndOf,
    Nat.max_eq_right hl,
    decodeLoop_eq_parseRegion (nibbleLength p.lengthNibble - 20) 20 region [] (by omega) hb]

end Sys2Proof.Machine
end

