-- ==== Sys2Proof/Laws/Tlv.lean ====
section
/-! SUPPORT. The seven TLV rows as one record form: what a row's instruction encodes to, what a TLV record
decodes to, and what it runs. -/

namespace Sys2Proof.Machine

theorem kindK02_bits : ∀ lo : BitVec 1, let k := BitVec.ofNat 8 (0x02 + lo.toNat)
    kindK02 lo = k ∧ 2 ≤ k.toNat ∧ (k.getLsbD 7 = false) ∧ (k.getLsbD 6 = false) ∧ (k.getLsbD 5 = false) ∧ (k.getLsbD 4 = false) ∧ (k.getLsbD 3 = false) ∧ (k.getLsbD 2 = false) ∧ k.extractLsb' 0 1 = lo := by decide

theorem kindK04_bits : ∀ lo : BitVec 2, let k := BitVec.ofNat 8 (0x04 + lo.toNat)
    kindK04 lo = k ∧ 2 ≤ k.toNat ∧ (k.getLsbD 7 = false) ∧ (k.getLsbD 6 = false) ∧ (k.getLsbD 5 = false) ∧ (k.getLsbD 4 = false) ∧ (k.getLsbD 3 = false) ∧ (k.getLsbD 2 = true) ∧ k.extractLsb' 0 2 = lo := by decide

theorem kindK08_bits : ∀ lo : BitVec 3, let k := BitVec.ofNat 8 (0x08 + lo.toNat)
    kindK08 lo = k ∧ 2 ≤ k.toNat ∧ (k.getLsbD 7 = false) ∧ (k.getLsbD 6 = false) ∧ (k.getLsbD 5 = false) ∧ (k.getLsbD 4 = false) ∧ (k.getLsbD 3 = true) ∧ k.extractLsb' 0 3 = lo := by decide

theorem kindK10_bits : ∀ lo : BitVec 4, let k := BitVec.ofNat 8 (0x10 + lo.toNat)
    kindK10 lo = k ∧ 2 ≤ k.toNat ∧ (k.getLsbD 7 = false) ∧ (k.getLsbD 6 = false) ∧ (k.getLsbD 5 = false) ∧ (k.getLsbD 4 = true) ∧ k.extractLsb' 0 4 = lo := by decide

theorem kindK20_bits : ∀ lo : BitVec 5, let k := BitVec.ofNat 8 (0x20 + lo.toNat)
    kindK20 lo = k ∧ 2 ≤ k.toNat ∧ (k.getLsbD 7 = false) ∧ (k.getLsbD 6 = false) ∧ (k.getLsbD 5 = true) ∧ k.extractLsb' 0 5 = lo := by decide

theorem kindK40_bits : ∀ lo : BitVec 6, let k := BitVec.ofNat 8 (0x40 + lo.toNat)
    kindK40 lo = k ∧ 2 ≤ k.toNat ∧ (k.getLsbD 7 = false) ∧ (k.getLsbD 6 = true) ∧ k.extractLsb' 0 6 = lo := by decide

theorem kindK80_bits : ∀ lo : BitVec 7, let k := BitVec.ofNat 8 (0x80 + lo.toNat)
    kindK80 lo = k ∧ 2 ≤ k.toNat ∧ (k.getLsbD 7 = true) ∧ k.extractLsb' 0 7 = lo := by decide

/-- A row's instruction: its bytes, its format, its well-formedness, and its kind, which is at least 2. -/
theorem IsTlv.syntax_facts {i : Instr} {k len : Byte} {value : List Byte} (h : IsTlv i k len value) :
    encode i = k :: len :: value ∧ i.format = .option ∧ i.wf = tlvWf len value ∧ 2 ≤ k.toNat := by
  cases h with
  | k02 lo => exact ⟨by rw [← (kindK02_bits lo).1]; rfl, rfl, rfl, (kindK02_bits lo).2.1⟩
  | k04 lo => exact ⟨by rw [← (kindK04_bits lo).1]; rfl, rfl, rfl, (kindK04_bits lo).2.1⟩
  | k08 lo => exact ⟨by rw [← (kindK08_bits lo).1]; rfl, rfl, rfl, (kindK08_bits lo).2.1⟩
  | k10 lo => exact ⟨by rw [← (kindK10_bits lo).1]; rfl, rfl, rfl, (kindK10_bits lo).2.1⟩
  | k20 lo => exact ⟨by rw [← (kindK20_bits lo).1]; rfl, rfl, rfl, (kindK20_bits lo).2.1⟩
  | k40 lo => exact ⟨by rw [← (kindK40_bits lo).1]; rfl, rfl, rfl, (kindK40_bits lo).2.1⟩
  | k80 lo => exact ⟨by rw [← (kindK80_bits lo).1]; rfl, rfl, rfl, (kindK80_bits lo).2.1⟩

/-- A row's instruction runs as the TLV record form. -/
theorem IsTlv.exec_eq {i : Instr} {k len : Byte} {value : List Byte} (h : IsTlv i k len value)
    (s : State) : exec i s = execTlv k len value s := by
  cases h with
  | k02 lo => rw [← (kindK02_bits lo).1]; rfl
  | k04 lo => rw [← (kindK04_bits lo).1]; rfl
  | k08 lo => rw [← (kindK08_bits lo).1]; rfl
  | k10 lo => rw [← (kindK10_bits lo).1]; rfl
  | k20 lo => rw [← (kindK20_bits lo).1]; rfl
  | k40 lo => rw [← (kindK40_bits lo).1]; rfl
  | k80 lo => rw [← (kindK80_bits lo).1]; rfl

/-- The row of a kind byte is the one its instruction came from. -/
theorem IsTlv.row_unique {i : Instr} {k len : Byte} {value : List Byte} (h : IsTlv i k len value) :
    tlvOfKind k len value = i := by
  cases h with
  | k02 lo =>
    obtain ⟨-, -, a7, a6, a5, a4, a3, a2, e⟩ := kindK02_bits lo
    simp only [tlvOfKind, a7, a6, a5, a4, a3, a2, e, Bool.false_eq_true, if_false]
  | k04 lo =>
    obtain ⟨-, -, a7, a6, a5, a4, a3, b, e⟩ := kindK04_bits lo
    simp only [tlvOfKind, a7, a6, a5, a4, a3, b, e, Bool.false_eq_true, if_true, if_false]
  | k08 lo =>
    obtain ⟨-, -, a7, a6, a5, a4, b, e⟩ := kindK08_bits lo
    simp only [tlvOfKind, a7, a6, a5, a4, b, e, Bool.false_eq_true, if_true, if_false]
  | k10 lo =>
    obtain ⟨-, -, a7, a6, a5, b, e⟩ := kindK10_bits lo
    simp only [tlvOfKind, a7, a6, a5, b, e, Bool.false_eq_true, if_true, if_false]
  | k20 lo =>
    obtain ⟨-, -, a7, a6, b, e⟩ := kindK20_bits lo
    simp only [tlvOfKind, a7, a6, b, e, Bool.false_eq_true, if_true, if_false]
  | k40 lo =>
    obtain ⟨-, -, a7, b, e⟩ := kindK40_bits lo
    simp only [tlvOfKind, a7, b, e, Bool.false_eq_true, if_true, if_false]
  | k80 lo =>
    obtain ⟨-, -, b, e⟩ := kindK80_bits lo
    simp only [tlvOfKind, b, e, if_true]

theorem kind_top_bit : ∀ k : Byte, 2 ≤ k.toNat →
    (if k.getLsbD 7 then k = BitVec.ofNat 8 (0x80 + (k.extractLsb' 0 7).toNat)
     else if k.getLsbD 6 then k = BitVec.ofNat 8 (0x40 + (k.extractLsb' 0 6).toNat)
     else if k.getLsbD 5 then k = BitVec.ofNat 8 (0x20 + (k.extractLsb' 0 5).toNat)
     else if k.getLsbD 4 then k = BitVec.ofNat 8 (0x10 + (k.extractLsb' 0 4).toNat)
     else if k.getLsbD 3 then k = BitVec.ofNat 8 (0x08 + (k.extractLsb' 0 3).toNat)
     else if k.getLsbD 2 then k = BitVec.ofNat 8 (0x04 + (k.extractLsb' 0 2).toNat)
     else k = BitVec.ofNat 8 (0x02 + (k.extractLsb' 0 1).toNat)) := by decide

/-- Every kind from 2 on has its row. -/
theorem isTlv_tlvOfKind (k len : Byte) (value : List Byte) (h : 2 ≤ k.toNat) :
    IsTlv (tlvOfKind k len value) k len value := by
  have key := kind_top_bit k h
  rw [tlvOfKind]
  split at key
  · rw [if_pos ‹_›]
    conv => arg 2; rw [key]
    exact .k80 ..
  rw [if_neg ‹_›]
  split at key
  · rw [if_pos ‹_›]
    conv => arg 2; rw [key]
    exact .k40 ..
  rw [if_neg ‹_›]
  split at key
  · rw [if_pos ‹_›]
    conv => arg 2; rw [key]
    exact .k20 ..
  rw [if_neg ‹_›]
  split at key
  · rw [if_pos ‹_›]
    conv => arg 2; rw [key]
    exact .k10 ..
  rw [if_neg ‹_›]
  split at key
  · rw [if_pos ‹_›]
    conv => arg 2; rw [key]
    exact .k08 ..
  rw [if_neg ‹_›]
  split at key
  · rw [if_pos ‹_›]
    conv => arg 2; rw [key]
    exact .k04 ..
  rw [if_neg ‹_›]
  conv => arg 2; rw [key]
  exact .k02 ..

end Sys2Proof.Machine
end

