-- ==== Sys2Proof/Laws/Steps.lean ====
section
/-! SUPPORT. What one step can do in each part of an operation, and how a run unfolds. -/

namespace Sys2Proof.Machine

/-! ### Runs -/

theorem run_next {n : Nat} {s t : State} (h : step s = .next t) :
    Sys2Proof.core.run (n + 1) s = Sys2Proof.core.run n t := by
  have h' : Sys2Proof.core.step s = .next t := h
  show Host.Core.run Sys2Proof.core (n + 1) s = _
  simp only [Host.Core.run, h']

theorem run_fault {n : Nat} {s : State} {f : Fault} (h : step s = .fault f) :
    Sys2Proof.core.run (n + 1) s = .fault f := by
  have h' : Sys2Proof.core.step s = .fault f := h
  show Host.Core.run Sys2Proof.core (n + 1) s = _
  simp only [Host.Core.run, h']

theorem run_refused {n : Nat} {s : State} {r : Refusal} (h : step s = .refused r) :
    Sys2Proof.core.run (n + 1) s = .refused r := by
  have h' : Sys2Proof.core.step s = .refused r := h
  show Host.Core.run Sys2Proof.core (n + 1) s = _
  simp only [Host.Core.run, h']

/-- Without a scheduled reset a step is what the machine does next. -/
theorem step_of_noReset {s : State} (h : s.resetIn = none) : step s = advance s := by rw [step, h]

/-- A step of an idle block takes the host's next action. -/
theorem advance_host {s : State} {e : HostEvent} {es : List HostEvent} (hp : s.phase = .idle)
    (hh : s.host = e :: es) : advance s =
      match hostAction e { s with host := es } with
      | .run i s' => exec i s'
      | .other o => o := by
  rw [advance, fetch, hp]
  simp only [hh] <;> rfl

/-! ### Kinds -/

theorem kind_ne_of_ge {k : Byte} (h : 2 ≤ k.toNat) : k ≠ Config.kindEol ∧ k ≠ Config.kindNop := by
  constructor <;> rintro rfl <;> exact absurd h (by decide)

theorem kind_ge_of_ne {k : Byte} (h0 : k ≠ Config.kindEol) (h1 : k ≠ Config.kindNop) : 2 ≤ k.toNat := by
  by_contra hc
  have : k.toNat = 0 ∨ k.toNat = 1 := by omega
  rcases this with h | h
  · exact h0 (BitVec.eq_of_toNat_eq h)
  · exact h1 (BitVec.eq_of_toNat_eq h)

/-! ### DECODE -/

/-- The step that reads the fixed prefix. -/
theorem advance_decodePrefix {s : State} (hp : s.phase = .decodePrefix) (hf : s.offset + 20 ≤ s.src.len) :
    ∃ p, decodeHeader s.src s.offset = decodeRest s.src s.offset p ∧
      advance s = decodePrefixStep p s := by
  obtain ⟨bs, hb⟩ := Memory.readBytes_fits hf
  obtain ⟨p, hd⟩ := decodeFixedPrefix_of_length (Memory.readBytes_ok hb).1
  refine ⟨p, decodeHeader_eq hb hd, ?_⟩
  rw [advance, fetch, hp]
  simp only [Config.fixedLen, hb, decoded, decode, hd]
  show execHdr20 p s = _
  rw [execHdr20, hp]

/-- Everything one turn of the option loop can do, as a step of the machine and as a turn of the
one-transaction loop. -/
theorem advance_decodeOptions {s : State} {d : DecodeLocal} (hp : s.phase = .decodeOptions d)
    (hlt : d.pos < d.regionEnd) (hf : s.offset + d.regionEnd ≤ s.src.len) :
    (readRecord s.src s.offset d.pos d.regionEnd = .ok .stop ∧
      advance s = .next (s.finishDecode d)) ∨
    (readRecord s.src s.offset d.pos d.regionEnd = raising .malformedOption ∧
      advance s = .next (s.raise .malformedOption)) ∨
    (∃ o, readRecord s.src s.offset d.pos d.regionEnd = .ok (.append o (optWireLen o)) ∧
      DecodableEntry o ∧ d.pos + optWireLen o ≤ d.regionEnd ∧
      advance s = .next (s.appendEntry d o (optWireLen o))) := by
  obtain ⟨bs, hb⟩ := Memory.readBytes_fits (m := s.src) (a := s.offset + d.pos)
    (n := d.regionEnd - d.pos) (by omega)
  obtain ⟨hl, hg⟩ := Memory.readBytes_ok hb
  have hadv : ∀ i rest, decode .option bs = .ok (i, rest) → advance s = exec i s := by
    intro i rest hd
    rw [advance, fetch, hp]
    simp only [fetchRecord, if_pos hlt, hb, decoded, hd]
  match bs, hl, hg, hadv with
  | [], hl, _, _ => simp at hl; omega
  | k :: rest, hl, hg, hadv =>
    have hk : s.src.get (s.offset + d.pos) = .ok k := hg 0 (by simp)
    simp only [List.length_cons] at hl
    by_cases h0 : k = Config.kindEol
    · subst h0
      refine .inl ⟨readRecord_eol hk, ?_⟩
      rw [hadv .optEol rest rfl]
      show execOptEol s = _
      rw [execOptEol, hp]
    by_cases h1 : k = Config.kindNop
    · subst h1
      refine .inr (.inr ⟨⟨Config.kindNop, []⟩, readRecord_nop hk, ⟨by decide, fun _ => rfl⟩, ?_, ?_⟩)
      · show d.pos + 1 ≤ _
        omega
      · rw [hadv .optNop rest rfl]
        show execOptNop s = _
        rw [execOptNop, hp]
        rfl
    have h2 := kind_ge_of_ne h0 h1
    match rest, hl, hg, hadv with
    | [], hl, hg, hadv =>
      simp only [List.length_nil] at hl
      refine .inr (.inl ⟨readRecord_noLength hk h0 h1 (by omega), ?_⟩)
      rw [hadv (tlvOfKind k 0 []) [] (by rw [decode, decodeRecord, if_neg h0, if_neg h1]),
        (isTlv_tlvOfKind k 0 [] h2).exec_eq, execTlv, hp]
      simp only [decodeTlvStep]
      rw [if_pos (by omega)]
    | len :: rest', hl, hg, hadv =>
      have hlen : s.src.get (s.offset + d.pos + 1) = .ok len := hg 1 (by simp)
      simp only [List.length_cons] at hl
      have ha := hadv (tlvOfKind k len (rest'.take (len.toNat - 2))) (rest'.drop (len.toNat - 2))
        (by rw [decode, decodeRecord, if_neg h0, if_neg h1])
      rw [(isTlv_tlvOfKind k len (rest'.take (len.toNat - 2)) h2).exec_eq, execTlv, hp] at ha
      simp only [decodeTlvStep] at ha
      rw [if_neg (by omega)] at ha
      by_cases hbad : len.toNat < 2 ∨ rest'.length < len.toNat - 2
      · refine .inr (.inl ⟨readRecord_badLength hk h0 h1 (by omega) hlen (by omega), ?_⟩)
        rw [ha, checkTlv_malformed (by omega)]
        rfl
      · have htl : (rest'.take (len.toNat - 2)).length = len.toNat - 2 := by
          rw [List.length_take]; omega
        have hv : s.src.readBytes (s.offset + d.pos + 2) (len.toNat - 2) =
            .ok (rest'.take (len.toNat - 2)) := by
          conv => lhs; rw [← htl]
          refine Memory.readBytes_eq fun j hj => ?_
          rw [htl] at hj
          have := hg (j + 2) (by simp only [List.length_cons]; omega)
          rw [show s.offset + d.pos + 2 + j = s.offset + d.pos + (j + 2) by omega, this]
          simp
        have hw : optWireLen ⟨k, rest'.take (len.toNat - 2)⟩ = len.toNat := by
          rw [optWireLen, if_neg h1]
          simp only [htl]
          omega
        refine .inr (.inr ⟨⟨k, rest'.take (len.toNat - 2)⟩, ?_, ⟨h0, fun h => absurd h h1⟩,
          by omega, ?_⟩)
        · rw [hw]
          exact readRecord_tlv hk h0 h1 hlen (by omega) (by omega) hv
        · rw [ha, hw, checkTlv_ok (by omega) (by omega)]
          rfl

/-! ### ENCODE -/

/-- The step that writes the fixed prefix. -/
theorem advance_encodePrefix {s : State} {e : EncodeLocal} (hp : s.phase = .encodePrefix e) :
    advance s =
      endWith (emit (prefixBytes (prefixOfHeader s.header)) e) State.prefixWritten s := by
  rw [advance, fetch, hp]
  show execHdr20 _ s = _
  rw [execHdr20, hp]

/-- The step that writes the next entry, of whatever kind. -/
theorem advance_encodeEntry {s : State} {e : EncodeLocal} {o : Entry} {os : List Entry}
    (hp : s.phase = .encodeOptions e) (hq : e.pending = o :: os) :
    advance s = endWith (emit (entryBytes o) e) State.nextEntry s := by
  rw [advance, fetch, hp]
  simp only [emitRecord, hq, entryInstr]
  by_cases h0 : o.kind = Config.kindEol
  · rw [if_pos h0]
    rfl
  rw [if_neg h0]
  by_cases h1 : o.kind = Config.kindNop
  · rw [if_pos h1]
    show execOptNop s = _
    rw [execOptNop, hp, entryBytes, if_pos h1]
  · rw [if_neg h1]
    show exec _ s = _
    rw [(isTlv_tlvOfKind o.kind _ _ (kind_ge_of_ne h0 h1)).exec_eq, execTlv, hp, entryBytes, if_neg h1]

/-- The step that writes the sentinel. -/
theorem advance_encodeSentinel {s : State} {e : EncodeLocal} (hp : s.phase = .encodeOptions e)
    (hq : e.pending = []) : advance s = endWith (emit [Config.kindEol] e) State.sentinelWritten s := by
  rw [advance, fetch, hp]
  simp only [emitRecord, hq]
  show execOptEol s = _
  rw [execOptEol, hp]

end Sys2Proof.Machine
end

