-- ==== Sys2Proof/Tests/Slice0.lean ====
section
/-! SUPPORT. The model's own tests, and a witness of the hypotheses of each statement. Expected values are
those of spec/95_test_vectors.md (the vector's name stands in the comment) or words written out by hand from
spec/30_encoding.md. -/

namespace Sys2Proof.Tests

open Sys2Proof Sys2Proof.Machine

/-! ### Small states -/

/-- The state a step ends in, if it ends in one. -/
def ran (o : Host.Outcome State Fault Refusal) : Option State :=
  match o with
  | .next s => some s
  | .fault _ => none
  | .refused _ => none

/-- Status and result Header of what ran. -/
def header (o : Host.Outcome State Fault Refusal) : Option (Option Status × Option Header) :=
  (ran o).map fun s => (s.status, s.resultHeader)

/-- Status, result bytes and DST of what ran. -/
def bytes (o : Host.Outcome State Fault Refusal) : Option (Option Status × Option Memory × Memory) :=
  (ran o).map fun s => (s.status, s.resultBytes, s.dst)

/-- Status and phase of what ran. -/
def phase (o : Host.Outcome State Fault Refusal) : Option (Option Status × Phase) :=
  (ran o).map fun s => (s.status, s.phase)

/-- After reset, with these bytes at SRC. -/
def withSrc (bs : List Byte) : State := { State.reset with src := Memory.ofBytes bs }

/-- After reset, with this Header to encode. -/
def withHeader (h : Header) : State := { State.reset with header := h }

/-- The same, into a DST of these bytes from `offset` on. -/
def withDst (h : Header) (bs : List Byte) (offset : Nat) : State :=
  { State.reset with header := h, dst := Memory.ofBytes bs, bufPresent := true, offset := offset }

/-- The prefix of the vectors E, B, S, X and M: bytes 12 and 13 as given. -/
def prefixE (b12 b13 : Byte) : List Byte :=
  [0x04, 0xD2, 0x00, 0x50, 0x00, 0x00, 0x00, 0x01, 0x00, 0x00, 0x00, 0x00, b12, b13, 0x20, 0x00, 0x00,
    0x00, 0x00, 0x00]

/-- The Header of those vectors. -/
def headerE (f : Flags) (hl : Nat) (os : List Entry) : Header :=
  { sourcePort := 0x04D2, destPort := 0x0050, sequenceNumber := 1, acknowledgmentNumber := 0, flags := f,
    window := 0x2000, checksum := 0, urgentPointer := 0, headerLength := hl, options := os }

/-- The 20 bytes of V1. -/
def bytesV1 : List Byte :=
  [0x12, 0x34, 0x00, 0x50, 0x01, 0x02, 0x03, 0x04, 0x00, 0x00, 0x00, 0x00, 0x51, 0x02, 0xFF, 0xFF, 0xBE,
    0xEF, 0x00, 0x00]

/-- H1 of V1. -/
def headerV1 : Header :=
  { sourcePort := 0x1234, destPort := 0x0050, sequenceNumber := 0x01020304, acknowledgmentNumber := 0,
    flags := { Flags.clear with syn := true, ns := true }, window := 0xFFFF, checksum := 0xBEEF,
    urgentPointer := 0, headerLength := 20, options := [] }

/-- The scalars of V2 to V9. -/
def headerV2 (hl : Nat) (os : List Entry) : Header :=
  { sourcePort := 0xC000, destPort := 0x01BB, sequenceNumber := 0xDEADBEEF, acknowledgmentNumber := 1,
    flags := { Flags.clear with ack := true, psh := true }, window := 0x0400, checksum := 0,
    urgentPointer := 0, headerLength := hl, options := os }

/-- The prefix of V2 to V9. -/
def prefixV2 (b12 : Byte) : List Byte :=
  [0xC0, 0x00, 0x01, 0xBB, 0xDE, 0xAD, 0xBE, 0xEF, 0x00, 0x00, 0x00, 0x01, b12, 0x18, 0x04, 0x00, 0x00,
    0x00, 0x00, 0x00]

def nop : Entry := ⟨1, []⟩

/-- The options of V2. -/
def optionsV2 : List Entry := [nop, ⟨8, [0x11, 0x22, 0x33, 0x44]⟩]

/-- The options region of V2. -/
def regionV2 : List Byte := [0x01, 0x08, 0x06, 0x11, 0x22, 0x33, 0x44, 0x00]

/-- P1: SRC is the 28 bytes of V2, the prefix has been read, the cursor is at `pos`. -/
def loopP1 (pos : Nat) (os : List Entry) : State :=
  { withSrc (prefixV2 0x70 ++ regionV2) with phase := .decodeOptions ⟨headerV2 28 [], pos, 28, os⟩ }

/-- ENCODE of V2's Header into a fresh buffer: `pos` bytes written. -/
def emitV2 (out : List Byte) (pos : Nat) (os : List Entry) : State :=
  { withHeader (headerV2 28 optionsV2) with phase := .encodeOptions ⟨Memory.ofBytes out, 0, pos, os⟩ }

/-! ### Well-formedness refuses -/

/-- A length byte below 2 (R58), in each of the seven rows. -/
theorem test_wf_refuses_short_length :
    (Instr.optTlvK02 0 1 []).wf = false ∧ (Instr.optTlvK04 0 0 []).wf = false ∧
    (Instr.optTlvK08 0 1 []).wf = false ∧ (Instr.optTlvK10 0 0 []).wf = false ∧
    (Instr.optTlvK20 0 1 []).wf = false ∧ (Instr.optTlvK40 0 0 []).wf = false ∧
    (Instr.optTlvK80 0 1 []).wf = false := by decide

/-- A value that is not as long as the length byte says (R58), in each of the seven rows. -/
theorem test_wf_refuses_wrong_value :
    (Instr.optTlvK02 0 3 []).wf = false ∧ (Instr.optTlvK04 0 2 [0x07]).wf = false ∧
    (Instr.optTlvK08 0 4 [0x07]).wf = false ∧ (Instr.optTlvK10 0 3 [0x07, 0x08]).wf = false ∧
    (Instr.optTlvK20 0 255 []).wf = false ∧ (Instr.optTlvK40 0 2 [0x00]).wf = false ∧
    (Instr.optTlvK80 0 3 []).wf = false := by decide

/-- Terms the wire can carry: `OPT 9:` with an empty value, `OPT 3: 07`. -/
theorem test_wf_accepts :
    (Instr.optTlvK08 1 2 []).wf = true ∧ (Instr.optTlvK02 1 3 [0x07]).wf = true := by decide

/-! ### Words written out from the spec's encodings decode to what they stand for -/

/-- The four operation selects (R62). -/
theorem test_decode_selects :
    decode .op [0b00000000] = .ok (.decode, []) ∧ decode .op [0b00000001] = .ok (.construct, []) ∧
    decode .op [0b00000010] = .ok (.encode, []) ∧ decode .op [0b00000011] = .ok (.checksum, []) :=
  ⟨rfl, rfl, rfl, rfl⟩

/-- A select has two bits. -/
theorem test_decode_rejects_wide_select : decode .op [0b00000100] = .error .selectTooWide := rfl

/-- EOL and NOP (R56, R57). -/
theorem test_decode_eol_nop :
    decode .option [0b00000000, 0x02] = .ok (.optEol, [0x02]) ∧
    decode .option [0b00000001, 0x02] = .ok (.optNop, [0x02]) := ⟨rfl, rfl⟩

/-- The lowest and the highest kind of each TLV row: kind, length byte 3, one value byte, one byte more. -/
theorem test_decode_tlv_rows :
    decode .option [0b00000010, 3, 7, 9] = .ok (.optTlvK02 0 3 [7], [9]) ∧
    decode .option [0b00000011, 3, 7, 9] = .ok (.optTlvK02 1 3 [7], [9]) ∧
    decode .option [0b00000100, 3, 7, 9] = .ok (.optTlvK04 0 3 [7], [9]) ∧
    decode .option [0b00000111, 3, 7, 9] = .ok (.optTlvK04 3 3 [7], [9]) ∧
    decode .option [0b00001000, 3, 7, 9] = .ok (.optTlvK08 0 3 [7], [9]) ∧
    decode .option [0b00001111, 3, 7, 9] = .ok (.optTlvK08 7 3 [7], [9]) ∧
    decode .option [0b00010000, 3, 7, 9] = .ok (.optTlvK10 0 3 [7], [9]) ∧
    decode .option [0b00011111, 3, 7, 9] = .ok (.optTlvK10 15 3 [7], [9]) ∧
    decode .option [0b00100000, 3, 7, 9] = .ok (.optTlvK20 0 3 [7], [9]) ∧
    decode .option [0b00111111, 3, 7, 9] = .ok (.optTlvK20 31 3 [7], [9]) ∧
    decode .option [0b01000000, 3, 7, 9] = .ok (.optTlvK40 0 3 [7], [9]) ∧
    decode .option [0b01111111, 3, 7, 9] = .ok (.optTlvK40 63 3 [7], [9]) ∧
    decode .option [0b10000000, 3, 7, 9] = .ok (.optTlvK80 0 3 [7], [9]) ∧
    decode .option [0b11111111, 3, 7, 9] = .ok (.optTlvK80 127 3 [7], [9]) := by
  refine ⟨?_, ?_, ?_, ?_, ?_, ?_, ?_, ?_, ?_, ?_, ?_, ?_, ?_, ?_⟩ <;> rfl

/-- The 160 bits of a prefix: nibble 0101, unassigned 111, ns 0; then cwr, urg, psh and syn (R51 to R53, B9). -/
theorem test_decode_prefix :
    decode .header [0x12, 0x34, 0x00, 0x50, 0x01, 0x02, 0x03, 0x04, 0x0A, 0x0B, 0x0C, 0x0D, 0b01011110,
      0b10101010, 0xFE, 0xDC, 0xBE, 0xEF, 0x00, 0x07, 0x99] =
    .ok (.hdr20
      { sourcePort := 0x1234, destPort := 0x0050, sequenceNumber := 0x01020304,
        acknowledgmentNumber := 0x0A0B0C0D, lengthNibble := 5, unassigned := 7,
        flags := { Flags.clear with cwr := true, urg := true, psh := true, syn := true },
        window := 0xFEDC, checksum := 0xBEEF, urgentPointer := 7 }, [0x99]) := rfl

/-- Nineteen bytes are no prefix. -/
theorem test_decode_rejects_short_prefix :
    decode .header (List.replicate 19 0) = .error .prefixTooShort := rfl

/-- A word of the opcode table: the prefix is numbered from its most significant end, header byte 0 first. -/
theorem test_table_word_prefix :
    decodeTableWord 160 0x1234005001020304000000005102FFFFBEEF0000 =
    some (.hdr20
      { sourcePort := 0x1234, destPort := 0x0050, sequenceNumber := 0x01020304,
        acknowledgmentNumber := 0, lengthNibble := 5, unassigned := 0,
        flags := { Flags.clear with syn := true, ns := true },
        window := 0xFFFF, checksum := 0xBEEF, urgentPointer := 0 }) := rfl

/-- A record word of the opcode table, and the step that runs it (zeros above the kind: `L = 0`, R89). -/
theorem test_table_word_record :
    decodeTableWord 8 0x08 = some (.optTlvK08 0 0 []) ∧
    (ran (step (State.reset.withFetchWord 8 0x08))).map (·.status) =
      some (some (.error .malformedOption)) := by decide

/-! ### CONSTRUCT (K4, K5) -/

theorem test_construct_K4 :
    header (exec .construct { State.reset with fields := headerV2 24 [nop, nop, nop] }) =
      some (some .ok, some (headerV2 24 [nop, nop, nop])) := by decide

theorem test_construct_K5 :
    header (exec .construct { State.reset with fields := headerV2 23 [nop, nop] }) =
      some (some (.error .invalidHeaderLength), none) := by decide

/-! ### DECODE (E5, M5) -/

theorem test_decode_E5 :
    header (exec .decode
        (withSrc (prefixE 0x70 0x10 ++ [0x02, 0x04, 0xAA, 0xBB, 0x00, 0xDE, 0xAD, 0x99]))) =
      some (some .ok,
        some (headerE { Flags.clear with ack := true } 28 [⟨2, [0xAA, 0xBB]⟩])) := by decide

theorem test_decode_M5 :
    header (exec .decode (withSrc (prefixE 0x60 0x00 ++ [0x01, 0x01, 0x01, 0x02]))) =
      some (some (.error .malformedOption), none) := by decide

/-! ### ENCODE (V2, V12) -/

theorem test_encode_V2 :
    bytes (exec .encode (withHeader (headerV2 28 optionsV2))) =
      some (some .ok, some (Memory.ofBytes (prefixV2 0x70 ++ regionV2)), Memory.empty) := by decide

theorem test_encode_V12 :
    bytes (exec .encode (withDst (headerV2 24 [nop, nop, nop]) (List.replicate 30 0x55) 7)) =
      some (some (.error .bufferTooShort), none, Memory.ofBytes (List.replicate 30 0x55)) := by decide

/-! ### CHECKSUM (Q1) -/

theorem test_checksum_Q1 :
    bytes (exec .checksum { withDst headerV1 bytesV1 0 with ipctx := [0x45] }) =
      some (some (.error .notSupported), none, Memory.ofBytes bytesV1) := by decide

/-! ### The codes of a status port (R130) -/

theorem test_status_codes : Status.code .ok = 0 ∧ Status.code (.error .invalidHeaderLength) = 1 ∧
    Status.code (.error .bufferTooShort) = 2 ∧ Status.code (.error .malformedOption) = 3 ∧
    Status.code (.error .notSupported) = 4 := by decide

/-! ### Hand-overs -/

/-- P2 steps 2 and 3: the bytes ENCODE left in DST are what SRC holds next (R43). -/
theorem test_srcFromDst :
    (ran (step { withDst headerV1 bytesV1 0 with host := [.srcFromDst] })).map (·.src) =
      some (Memory.ofBytes bytesV1) := by decide

/-- A result that is not valid is some value, not a stop (R150, U11). -/
theorem test_invalid_result_goes_on :
    (ran (step { State.reset with host := [.headerFromResult, .reset 0] })).map (·.host) =
      some [.reset 0] := by decide

/-! ### Records, one step each (P1, V2, M1, M4) -/

/-- P1 before step 1: the prefix is read. -/
theorem test_step_hdr20_decode :
    phase (step { withSrc (prefixV2 0x70 ++ regionV2) with phase := .decodePrefix }) =
      some (none, .decodeOptions ⟨headerV2 28 [], 20, 28, []⟩) := by decide

/-- V2's prefix is written. -/
theorem test_step_hdr20_encode :
    phase (step { withHeader (headerV2 28 optionsV2) with
                  phase := .encodePrefix ⟨Memory.zeros 28, 0, 0, optionsV2⟩ }) =
      some (none, .encodeOptions
        ⟨Memory.ofBytes (prefixV2 0x70 ++ List.replicate 8 0), 0, 20, optionsV2⟩) := by decide

/-- P1 step 1. -/
theorem test_step_nop_decode :
    phase (step (loopP1 20 [])) = some (none, .decodeOptions ⟨headerV2 28 [], 21, 28, [nop]⟩) := by
  decide

/-- P1 step 2. -/
theorem test_step_tlv_decode :
    phase (step (loopP1 21 [nop])) =
      some (none, .decodeOptions ⟨headerV2 28 [], 27, 28, optionsV2⟩) := by decide

/-- P1 step 3. -/
theorem test_step_eol_decode :
    header (step (loopP1 27 optionsV2)) = some (some .ok, some (headerV2 28 optionsV2)) := by decide

/-- V2's NOP is written at header offset 20. -/
theorem test_step_nop_encode :
    phase (step (emitV2 (prefixV2 0x70 ++ List.replicate 8 0) 20 optionsV2)) =
      some (none, .encodeOptions
        ⟨Memory.ofBytes (prefixV2 0x70 ++ 0x01 :: List.replicate 7 0), 0, 21, optionsV2.tail⟩) := by decide

/-- V2's TLV entry is written at header offset 21. -/
theorem test_step_tlv_encode :
    phase (step (emitV2 (prefixV2 0x70 ++ 0x01 :: List.replicate 7 0) 21 optionsV2.tail)) =
      some (none, .encodeOptions ⟨Memory.ofBytes (prefixV2 0x70 ++ regionV2), 0, 27, []⟩) := by decide

/-- V2's sentinel is written at header offset 27 over what stood there, and ENCODE ends. -/
theorem test_step_eol_encode :
    (bytes (step (emitV2 (prefixV2 0x70 ++ regionV2.dropLast ++ [0x77]) 27 []))).map (·.2.1) =
      some (some (Memory.ofBytes (prefixV2 0x70 ++ regionV2))) := by decide

/-- V8: a kind-0 entry is written as kind, length byte, value. -/
theorem test_step_kind_zero_encode :
    phase (step { withHeader (headerV2 24 [⟨0, [0x09]⟩]) with
                  phase := .encodeOptions ⟨Memory.zeros 24, 0, 20, [⟨0, [0x09]⟩]⟩ }) =
      some (none, .encodeOptions
        ⟨Memory.ofBytes (List.replicate 20 0 ++ [0x00, 0x03, 0x09, 0x00]), 0, 23, []⟩) := by decide

/-- A DECODE at the first record of a region of 4 bytes. -/
def row4 : State := { withSrc (List.replicate 24 0) with
  phase := .decodeOptions ⟨headerE Flags.clear 24 [], 20, 24, []⟩ }

/-- Each TLV row: an exact fit ends DECODE (M4). -/
theorem test_rows_exact_fit :
    [Instr.optTlvK02 0 4 [1, 1], .optTlvK04 1 4 [1, 1], .optTlvK08 2 4 [1, 1], .optTlvK10 3 4 [1, 1],
      .optTlvK20 4 4 [1, 1], .optTlvK40 5 4 [1, 1], .optTlvK80 127 4 [1, 1]].map
        (fun i => header (exec i row4)) =
    [(2 : Byte), 5, 10, 19, 36, 69, 255].map
      fun k => some (some .ok, some (headerE Flags.clear 24 [⟨k, [1, 1]⟩])) := by decide

/-- Each TLV row: `L = 1` is refused (M2). -/
theorem test_rows_bad_length :
    ∀ i ∈ [Instr.optTlvK02 0 1 [], .optTlvK04 1 1 [], .optTlvK08 2 1 [], .optTlvK10 3 1 [],
      .optTlvK20 4 1 [], .optTlvK40 5 1 [], .optTlvK80 127 1 []],
      header (exec i row4) = some (some (.error .malformedOption), none) := by decide

/-! ### Witnesses: concrete states and operands that meet the hypotheses of the statements together -/

/-- DecodeOfEncodeIsIdentity, in each format; the longest and the shortest record. -/
theorem witness_wellFormed :
    Instr.encode.wf = true ∧
    (Instr.hdr20 (prefixOfHeader headerV1)).wf = true ∧ Instr.optNop.wf = true ∧
    (Instr.optTlvK02 1 2 []).wf = true ∧ (Instr.optTlvK80 127 255 (List.replicate 253 7)).wf = true :=
  ⟨rfl, rfl, rfl, rfl, by rw [Instr.wf, tlvWf, List.length_replicate]; rfl⟩

/-- EncodeOfDecodeIsIdentity and OptionRowsPartitionTheKinds. -/
theorem witness_decoded : decode .option [0x08, 0x03, 0x07, 0x99] = .ok (.optTlvK08 0 3 [7], [0x99]) ∧
    (Instr.optTlvK08 0 3 [7]).wf = true := ⟨rfl, rfl⟩

/-- KindMapIsTotal, second clause, at the ends of the range of kinds. -/
theorem witness_two_kinds : 2 ≤ (0x02 : Byte).toNat ∧ 2 ≤ (0xFF : Byte).toNat ∧
    decode .option [0x02, 0x03, 0x07] = .ok (.optTlvK02 0 3 [7], []) ∧
    decode .option [0xFF, 0x03, 0x07] = .ok (.optTlvK80 127 3 [7], []) :=
  ⟨by decide, by decide, rfl, rfl⟩

/-- FlagsSurvivePacking, both clauses at the ends of the range. -/
theorem witness_lengths : 63 / 4 ≤ 15 ∧ 0 / 4 ≤ 15 ∧ 60 % 4 = 0 ∧ 60 ≤ 60 ∧ 0 % 4 = 0 ∧ 0 ≤ 60 := by decide

/-- ConstructAcceptsExactlyTheValid, both clauses (K12, K13), and ValidHeaderBounds at 20 and 60. -/
theorem witness_valid : Valid (headerV2 60 (List.replicate 39 nop)) ∧ Valid headerV1 ∧
    ¬ Valid (headerV2 64 (List.replicate 43 nop)) ∧ ¬ Valid (headerV2 19 []) := by decide

/-- DecodeRefusesFewerThanTwentyBytes: 19 bytes (B2), and `offset` beyond the buffer (B3). -/
theorem witness_short :
    (let s := withSrc (List.replicate 19 0)
     (s.src.len : Int) - (s.offset : Int) < 20) ∧
    (let s := { withSrc (List.replicate 5 0) with offset := 9 }
     (s.src.len : Int) - (s.offset : Int) < 20) := by decide

/-- DecodeChecksDeclaredLength, first clause at its ends (B6: nibble 6, 23 bytes; nibble 15, 20 bytes), second
clause at nibbles 5 and 0; DecodeAcceptsShortNibble at nibbles 4 and 0 (S1, S2). -/
theorem witness_declared :
    (let s := withSrc (prefixE 0x60 0 ++ [2, 0, 0])
     s.offset + 20 ≤ s.src.len ∧ s.src.get (s.offset + 12) = .ok 0x60 ∧
       4 * ((0x60 : Byte).toNat / 16) > 20 ∧
       (s.src.len : Int) - (s.offset : Int) < 4 * ((0x60 : Byte).toNat / 16)) ∧
    (let s := withSrc (prefixE 0xF0 0)
     s.offset + 20 ≤ s.src.len ∧ s.src.get (s.offset + 12) = .ok 0xF0 ∧
       (s.src.len : Int) - (s.offset : Int) < 4 * ((0xF0 : Byte).toNat / 16)) ∧
    (let s := withSrc (prefixE 0x5F 0)
     s.offset + 20 ≤ s.src.len ∧ s.src.get (s.offset + 12) = .ok 0x5F ∧
       4 * ((0x5F : Byte).toNat / 16) ≤ 20) ∧
    (let s := withSrc (prefixE 0x40 0)
     s.offset + 20 ≤ s.src.len ∧ s.src.get (s.offset + 12) = .ok 0x40 ∧ (0x40 : Byte).toNat / 16 < 5) ∧
    (let s := withSrc (prefixE 0x0E 0xFF)
     s.offset + 20 ≤ s.src.len ∧ s.src.get (s.offset + 12) = .ok 0x0E ∧ (0x0E : Byte).toNat / 16 < 5) :=
  ⟨⟨by decide, rfl, by decide, by decide⟩, ⟨by decide, rfl, by decide⟩, ⟨by decide, rfl, by decide⟩,
    ⟨by decide, rfl, by decide⟩, ⟨by decide, rfl, by decide⟩⟩

/-- DecodeReadsTheFixedPrefix: twenty bytes, status OK, nibble 5 (V1). -/
theorem witness_prefix :
    (∀ k, k < 20 → (withSrc bytesV1).src.get ((withSrc bytesV1).offset + k) = .ok (bytesV1.getD k 0)) ∧
    (∃ t, exec .decode (withSrc bytesV1) = .next t ∧ t.status = some .ok) ∧
    (bytesV1.getD 12 0).toNat / 16 = 5 := by
  refine ⟨fun k hk => ?_, ⟨_, rfl, rfl⟩, by decide⟩
  interval_cases k <;> rfl

/-- DecodeReturnsTheRecordsInWireOrder: the list ends at the region's end (X3), and at an EOL before padding
(E6). -/
theorem witness_region :
    (let s := withSrc (prefixE 0x60 0 ++ [1, 1, 1, 1])
     s.offset + 20 ≤ s.src.len ∧ s.src.get (s.offset + 12) = .ok 0x60 ∧ 5 ≤ (0x60 : Byte).toNat / 16 ∧
       s.src.readBytes (s.offset + 20) (4 * ((0x60 : Byte).toNat / 16) - 20) =
         .ok (entriesWire (List.replicate 4 nop) ++ []) ∧
       ∀ o ∈ List.replicate 4 nop, DecodableEntry o) ∧
    (let s := withSrc (prefixE 0x60 0x10 ++ [1, 1, 0, 0x77])
     s.offset + 20 ≤ s.src.len ∧ s.src.get (s.offset + 12) = .ok 0x60 ∧ 5 ≤ (0x60 : Byte).toNat / 16 ∧
       s.src.readBytes (s.offset + 20) (4 * ((0x60 : Byte).toNat / 16) - 20) =
         .ok (entriesWire [nop, nop] ++ [0x00, 0x77]) ∧ ∀ o ∈ [nop, nop], DecodableEntry o) :=
  ⟨⟨by decide, rfl, by decide, rfl, by decide⟩, ⟨by decide, rfl, by decide, rfl, by decide⟩⟩

/-- DecodeRefusesMalformedRecord, each cause at its boundary: no length byte (M5), `L = 1` (M2), one byte too
many (M3). -/
theorem witness_malformed :
    (let s := withSrc (prefixE 0x60 0 ++ [1, 1, 1, 2])
     s.offset + 20 ≤ s.src.len ∧ s.src.get (s.offset + 12) = .ok 0x60 ∧ 5 ≤ (0x60 : Byte).toNat / 16 ∧
       s.src.readBytes (s.offset + 20) (4 * ((0x60 : Byte).toNat / 16) - 20) =
         .ok (entriesWire [nop, nop, nop] ++ 0x02 :: []) ∧
       (∀ o ∈ [nop, nop, nop], DecodableEntry o) ∧ 2 ≤ (0x02 : Byte).toNat) ∧
    (let s := withSrc (prefixE 0x60 0 ++ [2, 1, 0, 0])
     s.src.get (s.offset + 12) = .ok 0x60 ∧
       s.src.readBytes (s.offset + 20) (4 * ((0x60 : Byte).toNat / 16) - 20) =
         .ok (entriesWire [] ++ 0x02 :: [1, 0, 0]) ∧ (1 : Byte).toNat < 2) ∧
    (let s := withSrc (prefixE 0x60 0 ++ [2, 5, 1, 1])
     s.src.get (s.offset + 12) = .ok 0x60 ∧
       s.src.readBytes (s.offset + 20) (4 * ((0x60 : Byte).toNat / 16) - 20) =
         .ok (entriesWire [] ++ 0x02 :: [5, 1, 1]) ∧ 2 + [(1 : Byte), 1].length < (5 : Byte).toNat) :=
  ⟨⟨by decide, rfl, by decide, rfl, by decide, by decide⟩, ⟨rfl, rfl, by decide⟩, ⟨rfl, rfl, by decide⟩⟩

/-- DecodedHeaderShape. -/
theorem witness_decode_ok : ∃ t h, exec .decode (withSrc (prefixV2 0x70 ++ regionV2)) = .next t ∧
    t.resultHeader = some h := ⟨_, _, rfl, rfl⟩

/-- DecodeDependsOnHeaderBytesOnly: V1 alone, and V1 inside other bytes (B7). -/
theorem witness_two_sources :
    (withSrc bytesV1).src.get 12 = .ok 0x51 ∧
    (∀ k, k < max 20 (4 * ((0x51 : Byte).toNat / 16)) → (withSrc bytesV1).src.get (0 + k) =
      (withSrc ([0xFF, 0xFF] ++ bytesV1 ++ [0xAA, 0xBB, 0xCC])).src.get (2 + k)) ∧
    (∃ t, exec .decode (withSrc bytesV1) = .next t) ∧
    (∃ t, exec .decode { withSrc ([0xFF, 0xFF] ++ bytesV1 ++ [0xAA, 0xBB, 0xCC]) with offset := 2 } =
      .next t) := by
  refine ⟨rfl, fun k hk => ?_, ⟨_, rfl⟩, ⟨_, rfl⟩⟩
  have h : k < 20 := hk
  interval_cases k <;> rfl

/-- The ENCODE statements: an invalid Header (K6); a destination one byte too short, and one that fits to its
last byte (V12); no caller's buffer. -/
theorem witness_encode :
    ¬ Valid (withHeader (headerV2 25 [⟨2, [0xAA, 0xBB]⟩])).header ∧
    (let s := withDst (headerV2 24 [nop, nop, nop]) (List.replicate 30 0x55) 7
     Valid s.header ∧ s.bufPresent = true ∧ s.dst.len < s.offset + s.header.headerLength) ∧
    (let s := withDst (headerV2 24 [nop, nop, nop]) (List.replicate 30 0x55) 6
     s.dst.wf = true ∧ Valid s.header ∧ s.bufPresent = true ∧
       s.offset + s.header.headerLength ≤ s.dst.len) ∧
    (let s := withHeader (headerV2 60 (List.replicate 39 nop))
     s.dst.wf = true ∧ Valid s.header ∧ s.bufPresent = false) := by decide

/-- DecodeAfterEncodeGivesTheHeader with and without a caller's buffer; DecodeAfterEncodeKeepsTheSurvivors
with a Header that does not round-trip (V8). -/
theorem witness_round_trip :
    (let s := withDst (headerV2 28 optionsV2) (List.replicate 36 0xEE) 4
     s.dst.wf = true ∧ RoundTrips s.header ∧ s.offset + s.header.headerLength ≤ s.dst.len) ∧
    (let s := withHeader (headerV2 28 optionsV2)
     s.dst.wf = true ∧ RoundTrips s.header ∧ s.bufPresent = false) ∧
    (let s := withHeader (headerV2 24 [⟨0, [0x09]⟩])
     Valid s.header ∧ s.bufPresent = false ∧ survivors s.header.options ≠ s.header.options) := by decide

/-- EncodeAfterDecodeGivesTheBytes: B9, whose bits 3:1 of byte 12 are 111. -/
theorem witness_reencode : ∃ t h, exec .decode (withSrc (prefixE 0x5E 0x02)) = .next t ∧
    t.resultHeader = some h ∧ Valid h := ⟨_, _, rfl, rfl, by decide⟩

/-- FailedOperationLeavesNoTrace, OutcomeDependsOnOperandsAlone and OperationFrame: a failed DECODE, and the
other operations. -/
theorem witness_operations :
    (IsOperation .decode ∧ IsOperation .encode ∧ IsOperation .construct ∧ IsOperation .checksum) ∧
    (∃ t, exec .decode (withSrc []) = .next t ∧ t.status ≠ some .ok) ∧
    (∃ t, exec .encode (withHeader (headerV2 28 optionsV2)) = .next t) ∧
    (∃ t, exec .encode { withHeader (headerV2 28 optionsV2) with status := some .ok, ipctx := [7] } =
      .next t) := ⟨by decide, ⟨_, rfl, by decide⟩, ⟨_, rfl⟩, ⟨_, rfl⟩⟩

/-- FixedPrefixInsideDecode: nibble 6 with 23 bytes and with 24, nibbles 5 and 0. -/
theorem witness_prefix_in_decode :
    (let s := { withSrc (List.replicate 23 0) with phase := .decodePrefix }
     s.phase = .decodePrefix ∧ 20 < 4 * (6#4).toNat ∧
       (s.src.len : Int) - (s.offset : Int) < (4 * (6#4).toNat : Nat)) ∧
    (let s := { withSrc (List.replicate 24 0) with phase := .decodePrefix }
     s.phase = .decodePrefix ∧ 20 < 4 * (6#4).toNat ∧
       ((4 * (6#4).toNat : Nat) : Int) ≤ (s.src.len : Int) - (s.offset : Int)) ∧
    4 * (5#4).toNat ≤ 20 ∧ 4 * (0#4).toNat ≤ 20 := by decide

/-- FixedPrefixInsideEncode, without options and with. -/
theorem witness_prefix_in_encode :
    (let e : EncodeLocal := ⟨Memory.zeros 20, 0, 0, []⟩
     { withHeader headerV1 with phase := .encodePrefix e }.phase = .encodePrefix e ∧ e.out.wf = true ∧
       e.start + e.pos + 20 ≤ e.out.len ∧ e.pending = []) ∧
    (let e : EncodeLocal := ⟨Memory.zeros 28, 0, 0, optionsV2⟩
     { withHeader (headerV2 28 optionsV2) with phase := .encodePrefix e }.phase = .encodePrefix e ∧
       e.out.wf = true ∧ e.start + e.pos + 20 ≤ e.out.len ∧ e.pending ≠ []) := by decide

/-- EolInsideDecode, NopInsideDecode: with room after the NOP, and at the last byte of the region. -/
theorem witness_nop_in_decode :
    (loopP1 20 []).phase = .decodeOptions ⟨headerV2 28 [], 20, 28, []⟩ ∧ 20 + 1 < 28 ∧
    (loopP1 27 []).phase = .decodeOptions ⟨headerV2 28 [], 27, 28, []⟩ ∧ 28 ≤ 27 + 1 := by decide

/-- TlvInsideDecode and TlvMalformedInsideDecode: a record of each row; lengths at the boundaries. -/
theorem witness_tlv :
    (IsTlv (.optTlvK02 1 4 [1, 1]) 0x03 4 [1, 1] ∧ IsTlv (.optTlvK04 3 4 [1, 1]) 0x07 4 [1, 1] ∧
      IsTlv (.optTlvK08 7 4 [1, 1]) 0x0F 4 [1, 1] ∧ IsTlv (.optTlvK10 15 4 [1, 1]) 0x1F 4 [1, 1] ∧
      IsTlv (.optTlvK20 31 4 [1, 1]) 0x3F 4 [1, 1] ∧ IsTlv (.optTlvK40 63 4 [1, 1]) 0x7F 4 [1, 1] ∧
      IsTlv (.optTlvK80 127 4 [1, 1]) 0xFF 4 [1, 1]) ∧
    row4.phase = .decodeOptions ⟨headerE Flags.clear 24 [], 20, 24, []⟩ ∧
    (20 + 1 < 24 ∧ 2 ≤ (3 : Byte).toNat ∧ 20 + (3 : Byte).toNat < 24) ∧
    (20 + 1 < 24 ∧ 2 ≤ (4 : Byte).toNat ∧ 20 + (4 : Byte).toNat = 24) ∧
    (23 + 1 ≥ 24 ∧ (1 : Byte).toNat < 2 ∧ 20 + (5 : Byte).toNat > 24) :=
  ⟨⟨.k02 1 4 _, .k04 3 4 _, .k08 7 4 _, .k10 15 4 _, .k20 31 4 _, .k40 63 4 _, .k80 127 4 _⟩, rfl,
    by decide, by decide, by decide⟩

/-- EntriesInsideEncode for NOP and for a TLV row, SentinelInsideEncode: the last byte that fits. -/
theorem witness_emit :
    (let e : EncodeLocal := ⟨Memory.zeros 28, 0, 27, [nop]⟩
     (emitV2 (List.replicate 28 0) 27 [nop]).phase = .encodeOptions e ∧ e.out.wf = true ∧
       e.start + e.pos + [(0x01 : Byte)].length ≤ e.out.len ∧ e.start + e.pos < e.out.len) ∧
    IsTlv (.optTlvK08 0 6 [1, 2, 3, 4]) 0x08 6 [1, 2, 3, 4] ∧
    (let e : EncodeLocal := ⟨Memory.zeros 28, 0, 21, optionsV2.tail⟩
     (emitV2 (List.replicate 28 0) 21 optionsV2.tail).phase = .encodeOptions e ∧ e.out.wf = true ∧
       e.start + e.pos + [(0x08 : Byte), 6, 1, 2, 3, 4].length ≤ e.out.len) :=
  ⟨by decide, .k08 0 6 _, by decide⟩

/-- RecordsOutOfPlaceAreRefused: an idle block. -/
theorem witness_out_of_place :
    Instr.optEol.format = .option ∧ (Instr.hdr20 (prefixOfHeader headerV1)).format = .header ∧
    State.reset.phase ≠ .decodePrefix ∧ (∀ d, State.reset.phase ≠ .decodeOptions d) ∧
    (∀ e, State.reset.phase ≠ .encodePrefix e) ∧ (∀ e, State.reset.phase ≠ .encodeOptions e) :=
  ⟨rfl, rfl, nofun, nofun, nofun, nofun⟩

/-- StepRunsTheDecodedInstruction, each clause. -/
theorem witness_step :
    (let s := { State.reset with host := [.issue 2#2] }
     s.resetIn = none ∧ s.phase = .idle ∧ s.host = .issue 2#2 :: [] ∧
       decode .op [BitVec.ofNat 8 (2#2).toNat] = .ok (.encode, [])) ∧
    (let s := { withSrc bytesV1 with phase := .decodePrefix }
     s.resetIn = none ∧ s.phase = .decodePrefix ∧ s.src.readBytes s.offset 20 = .ok bytesV1 ∧
       decode .header bytesV1 = .ok (.hdr20 (prefixOfHeader headerV1), [])) ∧
    (let s := loopP1 21 [nop]
     let d : DecodeLocal := ⟨headerV2 28 [], 21, 28, [nop]⟩
     s.resetIn = none ∧ s.phase = .decodeOptions d ∧ d.pos < d.regionEnd ∧
       s.src.readBytes (s.offset + d.pos) (d.regionEnd - d.pos) =
         .ok [0x08, 0x06, 0x11, 0x22, 0x33, 0x44, 0x00] ∧
       decode .option [0x08, 0x06, 0x11, 0x22, 0x33, 0x44, 0x00] =
         .ok (.optTlvK08 0 6 [0x11, 0x22, 0x33, 0x44], [0x00])) ∧
    (let e : EncodeLocal := ⟨Memory.zeros 20, 0, 0, []⟩
     { withHeader headerV1 with phase := .encodePrefix e }.phase = .encodePrefix e) ∧
    (let e : EncodeLocal := ⟨Memory.ofBytes [], 0, 20, optionsV2⟩
     (emitV2 [] 20 optionsV2).phase = .encodeOptions e ∧ e.pending = nop :: optionsV2.tail ∧
       nop.kind ≠ 0) ∧
    (let e : EncodeLocal := ⟨Memory.ofBytes [], 0, 27, []⟩
     (emitV2 [] 27 []).phase = .encodeOptions e ∧ e.pending = []) :=
  ⟨⟨rfl, rfl, rfl, rfl⟩, ⟨rfl, rfl, rfl, rfl⟩, ⟨rfl, rfl, by decide, rfl, rfl⟩, rfl, ⟨rfl, rfl, by decide⟩,
    ⟨rfl, rfl⟩⟩

/-- A DECODE in its option loop that meets the invariant (P1, step 2). -/
theorem witness_inv_decode : (loopP1 21 [nop]).Inv ∧ (loopP1 21 [nop]).phase ≠ .idle :=
  ⟨⟨by decide, by decide, ⟨rfl, rfl⟩, ⟨by decide, by decide, by decide, by decide, by decide, by decide,
    by decide, by decide⟩⟩, nofun⟩

/-- StepKeepsTheInvariant, OperationUnderWayNeverStops and CursorAdvancesByTheRecord: that state's step
answers a next state that stays in the loop. -/
theorem witness_cursor : (loopP1 21 [nop]).resetIn = none ∧ ∃ t d', step (loopP1 21 [nop]) = .next t ∧
    t.phase = .decodeOptions d' := ⟨rfl, _, _, rfl, rfl⟩

/-- DecodeRecordByRecordAgrees and EncodeRecordByRecordAgrees. -/
theorem witness_walk :
    (let s := { withSrc (prefixV2 0x70 ++ regionV2) with host := [.walk 0#2] }
     s.phase = .idle ∧ s.resetIn = none ∧ s.host = .walk 0#2 :: []) ∧
    (let s := { withHeader (headerV2 28 optionsV2) with host := [.walk 2#2] }
     s.phase = .idle ∧ s.resetIn = none ∧ s.host = .walk 2#2 :: []) := by decide

/-- ENCODE into the caller's buffer under way, a reset due now. -/
def resetDue : State :=
  { withDst headerV1 (List.replicate 24 0x55) 4 with
    phase := .encodePrefix ⟨Memory.ofBytes (List.replicate 24 0x55), 4, 0, []⟩, resetIn := some 0 }

/-- ResetAbandonsTheOperation: while ENCODE writes DST, with a byte at the last header offset, and on an idle
block. -/
theorem witness_reset :
    (resetDue.Inv ∧ resetDue.resetIn = some 0 ∧ (headerWire resetDue.header)[19]? = some 0x00) ∧
    ({ State.reset with resetIn := some 0 }.Inv ∧ State.reset.bufPresent = false) :=
  ⟨⟨⟨by decide, by decide, ⟨rfl, rfl⟩, ⟨⟨by decide, by decide, by decide, fun _ => by decide⟩, rfl, rfl⟩⟩,
    rfl, rfl⟩, ⟨rfl, rfl, ⟨rfl, rfl⟩, trivial⟩, rfl⟩

/-- CollaboratorChangesTwoBytes: a DST of exactly 18 bytes from `offset` on. -/
theorem witness_collaborator :
    let s := { withDst headerV1 (List.replicate 20 0x55) 2 with host := [.collaborator 0xA1 0xB2] }
    s.phase = .idle ∧ s.resetIn = none ∧ s.host = .collaborator 0xA1 0xB2 :: [] ∧ s.dst.wf = true ∧
      s.offset + 18 ≤ s.dst.len := by decide

/-- HandOversPassTheResult: each hand-over with its result valid, and with it invalid. -/
theorem witness_hand_over :
    (let s := { State.reset with
                host := [.srcFromResult, .dstFromResult], resultBytes := some (Memory.ofBytes bytesV1) }
     s.phase = .idle ∧ s.resetIn = none ∧ s.host = .srcFromResult :: [.dstFromResult] ∧
       s.resultBytes = some (Memory.ofBytes bytesV1)) ∧
    (let s := { State.reset with host := [.dstFromResult], resultBytes := some (Memory.ofBytes bytesV1) }
     s.host = .dstFromResult :: [] ∧ s.resultBytes = some (Memory.ofBytes bytesV1)) ∧
    (let s := { State.reset with host := [.headerFromResult], resultHeader := some headerV1 }
     s.host = .headerFromResult :: [] ∧ s.resultHeader = some headerV1) ∧
    { State.reset with host := [.srcFromDst] }.host = .srcFromDst :: [] ∧
    State.reset.resultBytes = none ∧ State.reset.resultHeader = none := by decide

/-- OnlyTheCollaboratorCanStop: a block that is about to run an operation after reset. -/
theorem witness_not_collaborator :
    { State.reset with host := [.issue 2#2] }.Inv ∧
    ∀ b16 b17 es, { State.reset with host := [.issue 2#2] }.host ≠ .collaborator b16 b17 :: es :=
  ⟨⟨rfl, rfl, ⟨rfl, rfl⟩, trivial⟩, fun _ _ _ h => by cases h⟩

end Sys2Proof.Tests
end

section
/-! PROOFS. The kind map of option records and the packed flags byte (spec/30_encoding.md R65, R53). -/

namespace Sys2Proof.Machine

/-! ### The kind map -/

theorem decode_option_eol (rest : List Byte) :
    decode .option (Config.kindEol :: rest) = .ok (.optEol, rest) := rfl

theorem decode_option_nop (rest : List Byte) :
    decode .option (Config.kindNop :: rest) = .ok (.optNop, rest) := rfl

/-- The bytes after the kind fix a TLV record's operands and where it ends; the kind fixes only its row. -/
theorem decode_option_tlv (rest : List Byte) : ∃ len value tl, ∀ k : Byte, 2 ≤ k.toNat →
    decode .option (k :: rest) = .ok (tlvOfKind k len value, tl) := by
  cases rest with
  | nil =>
    refine ⟨0, [], [], fun k hk => ?_⟩
    obtain ⟨hEol, hNop⟩ := kind_ne_of_ge hk
    simp only [decode, decodeRecord, if_neg hEol, if_neg hNop]
  | cons len rest' =>
    refine ⟨len, rest'.take (len.toNat - 2), rest'.drop (len.toNat - 2), fun k hk => ?_⟩
    obtain ⟨hEol, hNop⟩ := kind_ne_of_ge hk
    simp only [decode, decodeRecord, if_neg hEol, if_neg hNop]

/-- Well-formedness of a TLV record is a matter of its operands alone. -/
theorem tlvOfKind_wf {k : Byte} (len : Byte) (value : List Byte) (hk : 2 ≤ k.toNat) :
    (tlvOfKind k len value).wf = tlvWf len value := by
  obtain ⟨-, -, hwf, -⟩ := (isTlv_tlvOfKind k len value hk).syntax_facts
  exact hwf

/-- R65, first half: every kind byte has its instruction. -/
theorem decode_option_total (k : Byte) (rest : List Byte) :
    ∃ i tl, decode .option (k :: rest) = .ok (i, tl) ∧
      (k = 0x00 → i = .optEol ∧ tl = rest) ∧ (k = 0x01 → i = .optNop ∧ tl = rest) ∧
      (2 ≤ k.toNat → ∃ len value, IsTlv i k len value) := by
  by_cases hEol : k = Config.kindEol
  · subst hEol
    exact ⟨.optEol, rest, decode_option_eol rest, fun _ => ⟨rfl, rfl⟩,
      fun h => absurd h (by decide), fun h => absurd h (by decide)⟩
  by_cases hNop : k = Config.kindNop
  · subst hNop
    exact ⟨.optNop, rest, decode_option_nop rest, fun h => absurd h (by decide),
      fun _ => ⟨rfl, rfl⟩, fun h => absurd h (by decide)⟩
  obtain ⟨len, value, tl, hdec⟩ := decode_option_tlv rest
  have hk := kind_ge_of_ne hEol hNop
  exact ⟨tlvOfKind k len value, tl, hdec k hk, fun h => absurd h hEol, fun h => absurd h hNop,
    fun _ => ⟨len, value, isTlv_tlvOfKind k len value hk⟩⟩

/-- R65, second half: no TLV kind is treated differently from another. -/
theorem decode_option_kind_independent {k k' : Byte} {rest tl tl' : List Byte} {i i' : Instr}
    (hk : 2 ≤ k.toNat) (hk' : 2 ≤ k'.toNat) (h : decode .option (k :: rest) = .ok (i, tl))
    (h' : decode .option (k' :: rest) = .ok (i', tl')) : i.wf = i'.wf ∧ tl = tl' := by
  obtain ⟨len, value, t, hdec⟩ := decode_option_tlv rest
  rw [hdec k hk] at h
  rw [hdec k' hk'] at h'
  cases h
  cases h'
  exact ⟨(tlvOfKind_wf len value hk).trans (tlvOfKind_wf len value hk').symm, rfl⟩

/-- Settles O3: kinds 0 and 1 by their own rows, every other kind through the operands that the bytes after
it fix whatever the kind. -/
theorem kindMapIsTotal : Obligations.KindMapIsTotal :=
  ⟨decode_option_total, fun _ _ _ _ _ _ _ => decode_option_kind_independent⟩

/-! ### The flags byte -/

theorem flagsByte_toNat (f : Flags) :
    (flagsByte f).toNat = 0x80 * f.cwr.toNat + 0x40 * f.ece.toNat + 0x20 * f.urg.toNat +
      0x10 * f.ack.toNat + 0x08 * f.psh.toNat + 0x04 * f.rst.toNat + 0x02 * f.syn.toNat +
      0x01 * f.fin.toNat := by
  simp only [flagsByte, append_toNat, BitVec.toNat_ofBool]
  omega

/-- Settles O6: the weights by the value of a concatenation, the positions by the byte's eight bits. -/
theorem flagsByteLayout : Obligations.FlagsByteLayout := by
  intro f
  obtain ⟨h0, h1, h2, h3, h4, h5, h6, h7⟩ := flagsByte_bits f
  exact ⟨flagsByte_toNat f, h7, h6, h5, h4, h3, h2, h1, h0⟩

end Sys2Proof.Machine
end

section
/-! PROOFS. DECODE's bounds checks and its fixed prefix, EOL and NOP in the option loop (spec/41_decode.md R81
to R88, R90). -/

namespace Sys2Proof.Machine

/-! ### The fixed prefix that 20 bytes make -/

/-- The fixed prefix whose byte at header offset `k` is `b k` (R51). -/
def prefixOfBytes (b : Nat → Byte) : FixedPrefix where
  sourcePort := join2 (b 0) (b 1)
  destPort := join2 (b 2) (b 3)
  sequenceNumber := join4 (b 4) (b 5) (b 6) (b 7)
  acknowledgmentNumber := join4 (b 8) (b 9) (b 10) (b 11)
  lengthNibble := nibbleOf (b 12)
  unassigned := unassignedOf (b 12)
  flags := unpackFlags (b 12) (b 13)
  window := join2 (b 14) (b 15)
  checksum := join2 (b 16) (b 17)
  urgentPointer := join2 (b 18) (b 19)

theorem decodeFixedPrefix_map_range (b : Nat → Byte) :
    decodeFixedPrefix ((List.range 20).map b) = .ok (prefixOfBytes b, []) := rfl

@[simp] theorem nibbleLength_prefixOfBytes (b : Nat → Byte) :
    nibbleLength (prefixOfBytes b).lengthNibble = 4 * ((b 12).toNat / 16) := by
  rw [nibbleLength, prefixOfBytes, nibbleOf_toNat]

/-- DECODE of a buffer that holds the 20 bytes of a prefix goes on with that prefix. -/
theorem decodeHeader_of_bytes {src : Memory} {offset : Nat} {b : Nat → Byte}
    (hb : ∀ k, k < 20 → src.get (offset + k) = .ok (b k)) :
    decodeHeader src offset = decodeRest src offset (prefixOfBytes b) := by
  refine decodeHeader_eq (bs := (List.range 20).map b) ?_ (decodeFixedPrefix_map_range b)
  have hlen : ((List.range 20).map b).length = 20 := by simp
  have hread := Memory.readBytes_eq (m := src) (a := offset) (bs := (List.range 20).map b)
    fun k hk => by simpa using hb k (hlen ▸ hk)
  rwa [hlen] at hread

/-- Bytes that lie in the buffer, as a function of their offset. -/
theorem Memory.exists_bytes {m : Memory} {a n : Nat} (h : a + n ≤ m.len) :
    ∃ b : Nat → Byte, ∀ k, k < n → m.get (a + k) = .ok (b k) :=
  ⟨fun k => cellAt m.cells (a + k), fun _ hk => Memory.get_of_lt (by omega)⟩

/-! ### What DECODE does after the fixed prefix -/

/-- R84, second bounds check. -/
theorem decodeRest_of_tooLong {src : Memory} {offset : Nat} {p : FixedPrefix}
    (hl : 20 < nibbleLength p.lengthNibble) (hs : src.len < offset + nibbleLength p.lengthNibble) :
    decodeRest src offset p = raising .bufferTooShort := by
  rw [decodeRest, if_pos ⟨hl, avail_lt.mpr hs⟩]

/-- A declared length of at most 20 is not checked, and its options region is empty (R84, R85). -/
theorem decodeRest_of_noOptions {src : Memory} {offset : Nat} {p : FixedPrefix}
    (hl : nibbleLength p.lengthNibble ≤ 20) : decodeRest src offset p = .ok (headerOfPrefix p) := by
  have hend : regionEndOf (nibbleLength p.lengthNibble) = 20 := Nat.max_eq_left hl
  rw [decodeRest, if_neg fun h => absurd h.1 (by omega), hend]
  rfl

/-- Whatever the options region holds, the other fields are the prefix's. -/
theorem decodeRest_ok {src : Memory} {offset : Nat} {p : FixedPrefix} {h : Header}
    (hd : decodeRest src offset p = .ok h) : ∃ opts, h = { headerOfPrefix p with options := opts } := by
  rw [decodeRest] at hd
  split at hd
  · exact absurd hd (by simp)
  · generalize decodeLoop _ _ _ _ _ _ = r at hd
    cases r with
    | error x => exact absurd hd (by simp)
    | ok opts => exact ⟨opts, by simpa using hd.symm⟩

/-! ### DECODE, whole -/

theorem exec_decode (s : State) :
    exec .decode s = endWith (decodeHeader s.src s.offset) State.endHeader s := rfl

/-- A DECODE that answers OK has a Header from its computation. -/
theorem exec_decode_ok {s t : State} (h : exec .decode s = .next t) (hok : t.status = some .ok) :
    ∃ hd, decodeHeader s.src s.offset = .ok hd ∧ t.resultHeader = some hd := by
  obtain ⟨hd, hr, rfl⟩ | ⟨k, -, rfl⟩ := endWith_next h
  · exact ⟨hd, hr, rfl⟩
  · exact absurd hok (by simp)

/-- Settles O11: R81's check is the first thing DECODE does. -/
theorem decodeRefusesFewerThanTwentyBytes : Obligations.DecodeRefusesFewerThanTwentyBytes := by
  intro s h
  rw [exec_decode, decodeHeader_short (by omega)]
  rfl

/-- Settles O12: the 20 bytes make a prefix whose declared length is byte 12's, and what follows it either
fails the second check or has no options region to read. -/
theorem decodeChecksDeclaredLength : Obligations.DecodeChecksDeclaredLength := by
  intro s b12 hlen h12
  obtain ⟨b, hb⟩ := Memory.exists_bytes hlen
  obtain rfl : b 12 = b12 := Except.ok.inj ((hb 12 (by decide)).symm.trans h12)
  have hnl := nibbleLength_prefixOfBytes b
  rw [exec_decode, decodeHeader_of_bytes hb]
  constructor
  · intro hlong hshort
    rw [decodeRest_of_tooLong (by omega) (by omega)]
    rfl
  · intro hle
    rw [decodeRest_of_noOptions (by omega)]
    exact ⟨_, rfl⟩

/-- Settles O13: the Header that DECODE returns is the prefix's, and with nibble 5 nothing is left to check. -/
theorem decodeReadsTheFixedPrefix : Obligations.DecodeReadsTheFixedPrefix := by
  intro s b hb
  have hdec := decodeHeader_of_bytes hb
  have hnl := nibbleLength_prefixOfBytes b
  constructor
  · intro t ht hok
    obtain ⟨h, hh, hres⟩ := exec_decode_ok ht hok
    obtain ⟨opts, rfl⟩ := decodeRest_ok (hdec.symm.trans hh)
    exact ⟨_, hres, join2_toNat _ _, join2_toNat _ _, join4_toNat _ _ _ _, join4_toNat _ _ _ _, hnl, rfl,
      join2_toNat _ _, join2_toNat _ _, join2_toNat _ _⟩
  · intro h5
    refine ⟨headerOfPrefix (prefixOfBytes b), rfl, ?_⟩
    rw [exec_decode, hdec, decodeRest_of_noOptions (by omega)]
    rfl

/-! ### EOL and NOP in the option loop -/

theorem exec_optEol_decodeOptions {s : State} {d : DecodeLocal} (h : s.phase = .decodeOptions d) :
    exec .optEol s = .next (s.finishDecode d) := by
  show execOptEol s = _
  rw [execOptEol, h]

theorem exec_optNop_decodeOptions {s : State} {d : DecodeLocal} (h : s.phase = .decodeOptions d) :
    exec .optNop s = .next (s.appendEntry d ⟨Config.kindNop, []⟩ 1) := by
  show execOptNop s = _
  rw [execOptNop, h]

/-- An appended record that leaves bytes in the region keeps the loop going (R86). -/
theorem appendEntry_of_lt {d : DecodeLocal} {size : Nat} (o : Entry) (s : State)
    (h : d.pos + size < d.regionEnd) : s.appendEntry d o size =
      s.setPhase (.decodeOptions { d with pos := d.pos + size, opts := d.opts ++ [o] }) :=
  loopDecode_of_lt s h

/-- An appended record that reaches the end of the region ends DECODE (R90). -/
theorem appendEntry_of_ge {d : DecodeLocal} {size : Nat} (o : Entry) (s : State)
    (h : d.regionEnd ≤ d.pos + size) : s.appendEntry d o size =
      s.endHeader { d.header with options := d.opts ++ [o] } :=
  loopDecode_of_ge s h

/-- Settles O36: EOL finishes the loop with the entries so far. -/
theorem eolInsideDecode : Obligations.EolInsideDecode :=
  fun _ _ h => exec_optEol_decodeOptions h

/-- Settles O37: NOP appends one entry of one byte, and the loop goes on below the region's end only. -/
theorem nopInsideDecode : Obligations.NopInsideDecode := by
  intro s d hp
  rw [exec_optNop_decodeOptions hp]
  constructor
  · intro hlt
    rw [appendEntry_of_lt _ s hlt]
    rfl
  · intro hge
    rw [appendEntry_of_ge _ s hge]
    rfl

end Sys2Proof.Machine
end

section
/-! PROOFS. ENCODE as one run of bytes at the header start, and its fixed prefix (spec/42_encode.md R100 to
R107, R112). -/

namespace Sys2Proof.Machine

/-! ### The bytes of a Header -/

theorem entriesWire_length (os : List Entry) : (entriesWire os).length = entriesWireLen os := by
  induction os with
  | nil => rfl
  | cons o os ih => rw [entriesWire, entriesWireLen, List.length_append, entryBytes_length, ih]

theorem optionsWire_length (os : List Entry) : (optionsWire os).length = optionsWireLen os := by
  rw [optionsWire, optionsWireLen]
  split
  · rfl
  · rw [List.length_append, entriesWire_length, List.length_singleton]

theorem headerWire_length (h : Header) : (headerWire h).length = computedLength h.options := by
  rw [headerWire, List.length_append, prefixBytes_length, optionsWire_length, computedLength]

theorem headerWire_length_of_valid {h : Header} (hv : Valid h) :
    (headerWire h).length = h.headerLength := by
  obtain ⟨-, hlen, -, -⟩ := hv
  rw [headerWire_length, hlen]

/-- R71 as numbers: the legal lengths, and that the options fill what is left after the prefix. -/
theorem lengths_of_valid {h : Header} (hv : Valid h) : 20 ≤ h.headerLength ∧ h.headerLength % 4 = 0 ∧
    h.headerLength ≤ 60 ∧ optionsWireLen h.options = h.headerLength - 20 := by
  obtain ⟨h20, hlen, h4, h60⟩ := hv
  refine ⟨h20, h4, h60, ?_⟩
  rw [hlen, computedLength, Nat.add_sub_cancel_left]


/-! ### ENCODE, whole -/

/-- Reading less gives the front of what is read. -/
theorem Memory.readBytes_front {m : Memory} {a n : Nat} {bs cs : List Byte}
    (h : m.readBytes a n = .ok (bs ++ cs)) : m.readBytes a bs.length = .ok bs := by
  obtain ⟨-, hget⟩ := Memory.readBytes_ok h
  refine Memory.readBytes_eq fun k hk => ?_
  rw [hget k (by rw [List.length_append]; omega), List.getElem_append_left hk]

/-- Reading from later on gives the rest of what is read. -/
theorem Memory.readBytes_back {m : Memory} {a n : Nat} {bs cs : List Byte}
    (h : m.readBytes a n = .ok (bs ++ cs)) : m.readBytes (a + bs.length) cs.length = .ok cs := by
  obtain ⟨-, hget⟩ := Memory.readBytes_ok h
  refine Memory.readBytes_eq fun k hk => ?_
  rw [Nat.add_assoc, hget (bs.length + k) (by rw [List.length_append]; omega)]
  simp

theorem exec_encode (s : State) : exec .encode s =
    endWith (encodeHeader s.header s.bufPresent s.dst s.offset) State.endBytes s := rfl

/-- ENCODE of a valid Header that fits completes with the run of its bytes written into the destination. -/
theorem exec_encode_of_valid {s : State} (hv : Valid s.header)
    (hf : s.bufPresent = true → s.offset + s.header.headerLength ≤ s.dst.len) :
    ∃ out, (destination s.header s.bufPresent s.dst s.offset).1.writeBytes
        (destination s.header s.bufPresent s.dst s.offset).2 (headerWire s.header) = .ok out ∧
      exec .encode s = .next (s.endBytes out) := by
  have hfits := destination_fits hf
  rw [← headerWire_length_of_valid hv] at hfits
  obtain ⟨out, hout⟩ := Memory.writeBytes_fits hfits
  exact ⟨out, hout, by rw [exec_encode, encodeHeader_eq (encodeStart_ok hv hf), hout, endWith_ok]⟩

/-- R102: without a caller's buffer the result is a buffer of exactly the Header's bytes. -/
theorem exec_encode_fresh {s : State} (hv : Valid s.header) (hb : s.bufPresent = false) :
    exec .encode s = .next (s.endBytes (Memory.ofBytes (headerWire s.header))) := by
  obtain ⟨out, hout, hexec⟩ := exec_encode_of_valid hv (by simp [hb])
  have hdest : destination s.header s.bufPresent s.dst s.offset =
      (Memory.zeros (headerWire s.header).length, 0) := by
    rw [destination, hb, headerWire_length_of_valid hv]
    rfl
  rw [hdest] at hout
  rw [hexec, Memory.writeBytes_zeros hout]

/-- R100 and R102: the Header's bytes are read back at the header start, in either destination. -/
theorem exec_encode_reads_back {s : State} (hw : s.dst.wf = true) (hv : Valid s.header)
    (hf : s.bufPresent = true → s.offset + s.header.headerLength ≤ s.dst.len) :
    ∃ out, exec .encode s = .next (s.endBytes out) ∧
      out.readBytes (if s.bufPresent then s.offset else 0) s.header.headerLength =
        .ok (headerWire s.header) := by
  obtain ⟨out, hout, hexec⟩ := exec_encode_of_valid hv hf
  have hstart : (destination s.header s.bufPresent s.dst s.offset).2 =
      if s.bufPresent then s.offset else 0 := by rw [destination]; split <;> rfl
  refine ⟨out, hexec, ?_⟩
  rw [← hstart, ← headerWire_length_of_valid hv]
  exact Memory.readBytes_eq fun k hk =>
    Memory.get_writeBytes_same (destination_wf s.header s.bufPresent s.offset hw) hout hk

/-! ### The fixed prefix, byte by byte -/

/-- Byte 12 as a number (R105): bits 3:1 are 0. -/
theorem byte12_lengthNibble {hl : Nat} (h60 : hl ≤ 60) (ns : Bool) :
    byte12 (lengthNibble hl) 0 ns = .ofNat 8 (16 * (hl / 4) + ns.toNat) := by
  have hns := ns.toNat_le
  apply BitVec.eq_of_toNat_eq
  rw [byte12_toNat, lengthNibble_toNat (by omega), BitVec.toNat_ofNat]
  omega

/-- Byte 13 as a number (R53). -/
theorem flagsByte_eq (f : Flags) : flagsByte f = .ofNat 8 (128 * f.cwr.toNat + 64 * f.ece.toNat +
    32 * f.urg.toNat + 16 * f.ack.toNat + 8 * f.psh.toNat + 4 * f.rst.toNat + 2 * f.syn.toNat +
    f.fin.toNat) := by
  have hlt := (flagsByte f).isLt
  apply BitVec.eq_of_toNat_eq
  rw [flagsByte_toNat] at hlt ⊢
  rw [BitVec.toNat_ofNat]
  omega

/-- Settles O24: the front of the Header's bytes is its fixed prefix, whose fields are split big-endian. -/
theorem encodeWritesTheFixedPrefix : Obligations.EncodeWritesTheFixedPrefix := by
  intro s hw hv hf
  obtain ⟨out, hexec, hread⟩ := exec_encode_reads_back hw hv hf
  refine ⟨s.endBytes out, out, hexec, rfl, rfl, fun hb => by simp [hb], ?_⟩
  have hfront := Memory.readBytes_front hread
  rw [prefixBytes_length] at hfront
  obtain ⟨-, -, h60, -⟩ := lengths_of_valid hv
  rw [hfront, prefixBytes]
  simp only [prefixOfHeader, split2_eq, split4_eq, byte12_lengthNibble h60, flagsByte_eq,
    List.cons_append, List.nil_append]

end Sys2Proof.Machine
end

section
/-! PROOFS. The round trip: DECODE of the bytes ENCODE writes (spec/41_decode.md R94, first law;
spec/40_construct.md R74). -/

namespace Sys2Proof.Machine

/-! ### The fixed prefix -/

theorem decodeFixedPrefix_prefixBytes (p : FixedPrefix) :
    decodeFixedPrefix (prefixBytes p) = .ok (p, []) := by
  obtain ⟨hnibble, hunassigned, -⟩ := byte12_parts p.lengthNibble p.unassigned p.flags.ns
  simp only [prefixBytes, split2, split4, List.cons_append, List.nil_append, decodeFixedPrefix,
    join2_split2, join4_split4, hnibble, hunassigned, unpackFlags_pack]

/-- The Header of a valid Header's prefix: its own fields, the options still to come. -/
theorem headerOfPrefix_prefixOfHeader {h : Header} (hv : Valid h) :
    headerOfPrefix (prefixOfHeader h) = { h with options := [] } := by
  obtain ⟨-, h4, h60, -⟩ := lengths_of_valid hv
  rw [headerOfPrefix, prefixOfHeader, nibbleLength_lengthNibble h4 h60]

/-! ### The options region -/

theorem parseRegion_eol (turns : Nat) (rest : List Byte) (opts : List Entry) :
    parseRegion turns (Config.kindEol :: rest) opts = .ok opts := by
  cases turns <;> rfl

theorem parseRegion_nop (turns : Nat) (rest : List Byte) (opts : List Entry) :
    parseRegion (turns + 1) (Config.kindNop :: rest) opts =
      parseRegion turns rest (opts ++ [⟨Config.kindNop, []⟩]) := rfl

/-- A TLV record whose value its length byte counts is one entry. -/
theorem parseRegion_tlvBytes {k : Byte} {value : List Byte} (h0 : k ≠ Config.kindEol)
    (h1 : k ≠ Config.kindNop) (hl : 2 + value.length < 256) (turns : Nat) (rest : List Byte)
    (opts : List Entry) :
    parseRegion (turns + 1) (tlvBytes k (tlvLenByte value) value ++ rest) opts =
      parseRegion turns rest (opts ++ [⟨k, value⟩]) := by
  have hlen : (tlvLenByte value).toNat = value.length + 2 := by
    rw [tlvLenByte, BitVec.toNat_ofNat]
    omega
  rw [tlvBytes, List.cons_append, List.cons_append, parseRegion_cons, if_neg h0, if_neg h1]
  simp [hlen]

/-- The option loop over the bytes of a list and its sentinel returns what survives of the list. -/
theorem parseRegion_entriesWire {os : List Entry} {turns : Nat} (ht : os.length ≤ turns)
    (hl : ∀ o ∈ os, optWireLen o < 256) (opts : List Entry) :
    parseRegion turns (entriesWire os ++ [Config.kindEol]) opts = .ok (opts ++ survivors os) := by
  induction os generalizing turns opts with
  | nil => rw [entriesWire, List.nil_append, parseRegion_eol, survivors, List.append_nil]
  | cons o os ih =>
    obtain ⟨ho, hos⟩ := List.forall_mem_cons.mp hl
    obtain ⟨n, rfl⟩ : ∃ n, turns = n + 1 := ⟨turns - 1, by rw [List.length_cons] at ht; omega⟩
    have ih' := ih (turns := n) (by simpa using ht) hos
    rw [entriesWire, survivors, List.append_assoc, entryBytes]
    by_cases h0 : o.kind = Config.kindEol
    · rw [if_pos h0, h0, if_neg (by decide), tlvBytes, List.cons_append, parseRegion_eol, List.append_nil]
    by_cases h1 : o.kind = Config.kindNop
    · rw [if_neg h0, if_pos h1, if_pos h1, List.singleton_append, parseRegion_nop, ih',
        List.append_assoc, List.singleton_append]
    · rw [optWireLen, if_neg h1] at ho
      rw [if_neg h0, if_neg h1, if_neg h1, parseRegion_tlvBytes h0 h1 ho, ih', List.append_assoc,
        List.singleton_append]

/-- The same for a whole options region, the empty one included. -/
theorem parseRegion_optionsWire {os : List Entry} (hl : optionsWireLen os < 256) :
    parseRegion (optionsWireLen os) (optionsWire os) [] = .ok (survivors os) := by
  rw [optionsWireLen] at hl ⊢
  rw [optionsWire]
  by_cases ho : os = []
  · subst ho
    rfl
  rw [if_neg ho] at hl ⊢
  rw [if_neg ho]
  refine parseRegion_entriesWire ?_ (fun o hm => ?_) []
  · have := length_le_entriesWireLen os
    omega
  · have := optWireLen_le_of_mem hm
    omega

/-- Entries that DECODE can return all survive. -/
theorem survivors_of_decodable {os : List Entry} (h : ∀ o ∈ os, DecodableEntry o) :
    survivors os = os := by
  induction os with
  | nil => rfl
  | cons o os ih =>
    obtain ⟨⟨h0, h1⟩, hos⟩ := List.forall_mem_cons.mp h
    rw [survivors, if_neg h0, ih hos]
    by_cases hn : o.kind = Config.kindNop
    · rw [if_pos hn, ← hn, ← h1 hn]
    · rw [if_neg hn]

/-! ### The whole header -/

/-- DECODE where a valid Header's bytes stand returns the Header with the entries that survive. -/
theorem decodeHeader_headerWire {m : Memory} {a : Nat} {h : Header} (hv : Valid h)
    (hr : m.readBytes a h.headerLength = .ok (headerWire h)) :
    decodeHeader m a = .ok { h with options := survivors h.options } := by
  have hpre := Memory.readBytes_front hr
  have hreg := Memory.readBytes_back hr
  have hfields := headerOfPrefix_prefixOfHeader hv
  have hnl : nibbleLength (prefixOfHeader h).lengthNibble = h.headerLength :=
    congrArg Header.headerLength hfields
  obtain ⟨h20, -, h60, hopts⟩ := lengths_of_valid hv
  have hin : a + 20 ≤ m.len := by
    obtain ⟨hl, hget⟩ := Memory.readBytes_ok hpre
    have := (Memory.get_ok (hget 19 (by rw [hl, prefixBytes_length]; decide))).1
    omega
  rw [prefixBytes_length] at hpre hreg
  rw [optionsWire_length, hopts, ← hnl] at hreg
  rw [decodeHeader_eq hpre (decodeFixedPrefix_prefixBytes _),
    decodeRest_region (by rw [hnl]; exact h20) hreg hin, hnl, ← hopts,
    parseRegion_optionsWire (by omega), op_bind_ok, hfields]

theorem exec_decode_of_ok {s : State} {h : Header} (hd : decodeHeader s.src s.offset = .ok h) :
    exec .decode s = .next (s.endHeader h) := by
  rw [exec_decode, hd, endWith_ok]

/-- Settles O27: ENCODE leaves the Header's bytes at the header start, DECODE reads them as the survivors, and
decodable entries all survive. -/
theorem decodeAfterEncodeGivesTheHeader : Obligations.DecodeAfterEncodeGivesTheHeader := by
  rintro s hw ⟨hv, hdec⟩ hf
  obtain ⟨out, hexec, hread⟩ := exec_encode_reads_back hw hv hf
  have hd := decodeHeader_headerWire hv hread
  rw [survivors_of_decodable hdec] at hd
  exact ⟨_, out, _, hexec, rfl, exec_decode_of_ok hd, rfl, rfl⟩

/-- Settles O28: the fresh buffer holds exactly the Header's bytes, which DECODE reads as the survivors. -/
theorem decodeAfterEncodeKeepsTheSurvivors : Obligations.DecodeAfterEncodeKeepsTheSurvivors := by
  intro s hv hb
  have hread : (Memory.ofBytes (headerWire s.header)).readBytes 0 s.header.headerLength =
      .ok (headerWire s.header) := by
    rw [← headerWire_length_of_valid hv]
    exact Memory.readBytes_eq fun k hk => by rw [Nat.zero_add, Memory.get_ofBytes _ k hk]
  exact ⟨_, _, _, exec_encode_fresh hv hb, rfl, exec_decode_of_ok (decodeHeader_headerWire hv hread),
    rfl, rfl⟩

end Sys2Proof.Machine
end

section
/-! PROOFS. Re-encoding: ENCODE of a valid decoded Header (spec/41_decode.md R94, second law). -/

namespace Sys2Proof.Machine

/-! ### The options region -/

/-- The bytes of an accepted TLV record are those its entry is written as. -/
theorem entryBytes_of_tlv {k len : Byte} {rest : List Byte} (h1 : k ≠ Config.kindNop)
    (hl : ¬ (len.toNat < 2 ∨ rest.length < len.toNat - 2)) :
    entryBytes ⟨k, rest.take (len.toNat - 2)⟩ ++ rest.drop (len.toNat - 2) = k :: len :: rest := by
  have hlen : tlvLenByte (rest.take (len.toNat - 2)) = len := by
    have := len.isLt
    apply BitVec.eq_of_toNat_eq
    rw [tlvLenByte, List.length_take, BitVec.toNat_ofNat]
    omega
  rw [entryBytes, if_neg h1, hlen, tlvBytes, List.cons_append, List.cons_append, List.take_append_drop]

/-- The bytes of the entries, up to the region's end or to an EOL and any padding (R87, R90). -/
def RegionOf (os : List Entry) (bs : List Byte) : Prop :=
  bs = entriesWire os ∨ ∃ pad, bs = entriesWire os ++ Config.kindEol :: pad

theorem RegionOf.cons {os : List Entry} {bs : List Byte} (h : RegionOf os bs) (o : Entry) :
    RegionOf (o :: os) (entryBytes o ++ bs) := by
  obtain rfl | ⟨pad, rfl⟩ := h
  · exact .inl rfl
  · exact .inr ⟨pad, by rw [entriesWire, List.append_assoc]⟩

/-- The entries the option loop appends are the records of the region it reads. -/
theorem regionOf_of_parseRegion {turns : Nat} {bs : List Byte} {opts os : List Entry}
    (ht : bs.length ≤ turns) (h : parseRegion turns bs opts = .ok os) :
    ∃ new, os = opts ++ new ∧ RegionOf new bs := by
  induction turns generalizing bs opts with
  | zero =>
    obtain rfl : bs = [] := List.eq_nil_of_length_eq_zero (by omega)
    exact ⟨[], by simpa [parseRegion] using h.symm, .inl rfl⟩
  | succ turns ih =>
    match bs with
    | [] => exact ⟨[], by simpa [parseRegion] using h.symm, .inl rfl⟩
    | k :: rest =>
      rw [List.length_cons] at ht
      rw [parseRegion_cons] at h
      by_cases h0 : k = Config.kindEol
      · subst h0
        exact ⟨[], by simpa using h.symm, .inr ⟨rest, rfl⟩⟩
      rw [if_neg h0] at h
      by_cases h1 : k = Config.kindNop
      · subst h1
        obtain ⟨new, rfl, hnew⟩ := ih (by omega) h
        exact ⟨_ :: new, by simp, hnew.cons ⟨Config.kindNop, []⟩⟩
      rw [if_neg h1] at h
      match rest with
      | [] => exact absurd h (by simp)
      | len :: rest' =>
        by_cases hbad : len.toNat < 2 ∨ rest'.length < len.toNat - 2
        · simp only [if_pos hbad] at h
          exact absurd h (by simp)
        simp only [if_neg hbad] at h
        rw [List.length_cons] at ht
        obtain ⟨new, rfl, hnew⟩ := ih (by rw [List.length_drop]; omega) h
        exact ⟨_ :: new, by simp, entryBytes_of_tlv h1 hbad ▸ hnew.cons _⟩

/-- A region as long as the bytes of the list it decodes to is those bytes: no padding is left. -/
theorem optionsWire_of_parseRegion {bs : List Byte} {os : List Entry}
    (h : parseRegion bs.length bs [] = .ok os) (hl : optionsWireLen os = bs.length) :
    optionsWire os = bs := by
  obtain ⟨new, hnew, hbs⟩ := regionOf_of_parseRegion (Nat.le_refl _) h
  obtain rfl : os = new := by simpa using hnew
  rw [optionsWireLen] at hl
  rw [optionsWire]
  by_cases ho : os = []
  · rw [if_pos ho] at hl ⊢
    exact (List.eq_nil_of_length_eq_zero hl.symm).symm
  rw [if_neg ho] at hl ⊢
  rw [← entriesWire_length] at hl
  obtain rfl | ⟨pad, rfl⟩ := hbs
  · omega
  · rw [List.length_append, List.length_cons] at hl
    rw [List.eq_nil_of_length_eq_zero (by omega : pad.length = 0)]

/-! ### The whole header -/

/-- A header's bytes with bits 3:1 of byte 12 at 0, as ENCODE writes them (R105). -/
def clearUnassigned (b : Nat → Byte) (k : Nat) : Byte := if k = 12 then b k &&& 0xF1 else b k

/-- The prefix written for a decoded Header: the bytes read, without the unassigned bits. -/
theorem prefixBytes_prefixOfBytes (b : Nat → Byte) (opts : List Entry) :
    prefixBytes (prefixOfHeader { headerOfPrefix (prefixOfBytes b) with options := opts }) =
      (List.range 20).map (clearUnassigned b) := by
  have h12 : byte12 (nibbleOf (b 12)) 0 (unpackFlags (b 12) (b 13)).ns = b 12 &&& 0xF1 :=
    byte12_clear (b 12)
  simp only [prefixBytes, prefixOfHeader, headerOfPrefix, prefixOfBytes, lengthNibble_nibbleLength,
    split2_join2, split4_join4, h12, flagsByte_unpack]
  rfl

/-- A decoded Header lies in the buffer it was decoded from (R81, R84). -/
theorem decodeHeader_fits {m : Memory} {a : Nat} {h : Header} (hd : decodeHeader m a = .ok h) :
    a + max 20 h.headerLength ≤ m.len := by
  by_cases h20 : m.len < a + 20
  · rw [decodeHeader_short h20] at hd
    exact absurd hd (by simp)
  obtain ⟨b, hb⟩ := Memory.exists_bytes (m := m) (a := a) (n := 20) (by omega)
  rw [decodeHeader_of_bytes hb] at hd
  obtain ⟨opts, rfl⟩ := decodeRest_ok hd
  show a + max 20 (nibbleLength (prefixOfBytes b).lengthNibble) ≤ m.len
  by_contra hlong
  rw [decodeRest_of_tooLong (by omega) (by omega)] at hd
  exact absurd hd (by simp)

/-- A run of reads, byte by byte. -/
theorem Memory.readBytes_map_range {m : Memory} {a n : Nat} {b : Nat → Byte}
    (h : ∀ k, k < n → m.get (a + k) = .ok (b k)) : m.readBytes a n = .ok ((List.range n).map b) := by
  have hlen : ((List.range n).map b).length = n := by simp
  have hread := Memory.readBytes_eq (m := m) (a := a) (bs := (List.range n).map b)
    fun k hk => by simpa using h k (hlen ▸ hk)
  rwa [hlen] at hread

/-- A computation that answers has answered in each part. -/
theorem op_bind_eq_ok {α β : Type} {x : Op α} {f : α → Op β} {y : β} (h : (x >>= f) = .ok y) :
    ∃ a, x = .ok a ∧ f a = .ok y := by
  cases x with
  | ok a => exact ⟨a, rfl, h⟩
  | error e => exact absurd h (by simp)

/-- The options region of a valid decoded Header is the one ENCODE writes for it. -/
theorem optionsWire_of_decodeHeader {m : Memory} {a : Nat} {h : Header} {region : List Byte}
    (hd : decodeHeader m a = .ok h) (hv : Valid h)
    (hr : m.readBytes (a + 20) (h.headerLength - 20) = .ok region) : optionsWire h.options = region := by
  have hin := decodeHeader_fits hd
  obtain ⟨h20, -, -, hopts⟩ := lengths_of_valid hv
  obtain ⟨b, hb⟩ := Memory.exists_bytes (m := m) (a := a) (n := 20) (by omega)
  rw [decodeHeader_of_bytes hb] at hd
  obtain ⟨opts, rfl⟩ := decodeRest_ok hd
  rw [decodeRest_region h20 hr (by omega)] at hd
  obtain ⟨hl, -⟩ := Memory.readBytes_ok hr
  obtain ⟨os, hloop, hos⟩ := op_bind_eq_ok hd
  obtain rfl : os = opts := by simpa using hos
  exact optionsWire_of_parseRegion (hl ▸ hloop) (hopts.trans hl.symm)

/-- The bytes of a valid decoded Header are the bytes it was decoded from, without the unassigned bits. -/
theorem headerWire_of_decodeHeader {m : Memory} {a : Nat} {h : Header} (hd : decodeHeader m a = .ok h)
    (hv : Valid h) : ∃ b : Nat → Byte, (∀ k, k < h.headerLength → m.get (a + k) = .ok (b k)) ∧
      headerWire h = (List.range h.headerLength).map (clearUnassigned b) := by
  have hin := decodeHeader_fits hd
  obtain ⟨h20, -, -, -⟩ := lengths_of_valid hv
  obtain ⟨n, hn⟩ := Nat.exists_eq_add_of_le h20
  obtain ⟨b, hb⟩ := Memory.exists_bytes (m := m) (a := a) (n := h.headerLength) (by omega)
  refine ⟨b, hb, ?_⟩
  have hregion : optionsWire h.options = (List.range n).map fun j => b (20 + j) := by
    refine optionsWire_of_decodeHeader hd hv ?_
    rw [hn, Nat.add_sub_cancel_left]
    exact Memory.readBytes_map_range fun k hk => by rw [Nat.add_assoc]; exact hb _ (by omega)
  have hpre : prefixBytes (prefixOfHeader h) = (List.range 20).map (clearUnassigned b) := by
    rw [decodeHeader_of_bytes fun k hk => hb k (by omega)] at hd
    obtain ⟨opts, rfl⟩ := decodeRest_ok hd
    exact prefixBytes_prefixOfBytes b opts
  have hrest : ∀ j, clearUnassigned b (20 + j) = b (20 + j) := fun j => if_neg (by omega)
  rw [headerWire, hpre, hregion, hn, List.range_add, List.map_append, List.map_map]
  simp only [Function.comp_def, hrest]

/-- A result Header after DECODE is the one its computation answered. -/
theorem decodeHeader_of_exec {s t : State} {h : Header} (hexec : exec .decode s = .next t)
    (hres : t.resultHeader = some h) : decodeHeader s.src s.offset = .ok h := by
  obtain ⟨h', hd, rfl⟩ | ⟨k, -, rfl⟩ := endWith_next (exec_decode s ▸ hexec)
  · rwa [← Option.some.inj hres]
  · exact absurd hres (by simp)

/-- Settles O29: the fresh buffer holds the Header's bytes, and these are the bytes DECODE read, without the
unassigned bits of byte 12. -/
theorem encodeAfterDecodeGivesTheBytes : Obligations.EncodeAfterDecodeGivesTheBytes := by
  intro s t h hexec hres hv
  obtain ⟨b, hb, hwire⟩ := headerWire_of_decodeHeader (decodeHeader_of_exec hexec hres) hv
  refine ⟨_, _, exec_encode_fresh hv rfl, rfl, rfl, headerWire_length_of_valid hv,
    fun k hk => ⟨b k, hb k hk, ?_⟩⟩
  rw [Memory.get_ofBytes _ k (by rw [headerWire_length_of_valid hv]; exact hk)]
  simp [hwire, clearUnassigned]

end Sys2Proof.Machine
end

section
/-! PROOFS. What a failed operation leaves behind (spec/60_exceptions.md R136, R137). -/

namespace Sys2Proof.Machine

/-! ### ERROR ENTRY and the operation after it -/

@[simp] theorem State.raise_raise (k l : ErrorKind) (s : State) : (s.raise l).raise k = s.raise k := rfl

@[simp] theorem State.endHeader_raise (h : Header) (l : ErrorKind) (s : State) :
    (s.raise l).endHeader h = s.endHeader h := rfl

@[simp] theorem State.endBytes_raise (m : Memory) (l : ErrorKind) (s : State) :
    (s.raise l).endBytes m = s.endBytes m := rfl

/-- An operation ends the same way after an error as before it, when its good end overwrites what an error
leaves: a raise does so by itself, and a fault keeps no state. -/
theorem endWith_after_raise {α : Type} {fin : α → State → State} {l : ErrorKind} {s : State} (r : Op α)
    (hfin : ∀ x, fin x (s.raise l) = fin x s) : endWith r fin (s.raise l) = endWith r fin s := by
  cases r with
  | ok x => simp [hfin]
  | error e => cases e <;> simp

/-- A computation whose good end has status OK ends otherwise only by ERROR ENTRY (R136). -/
theorem endWith_failed {α : Type} {r : Op α} {fin : α → State → State} {s t : State}
    (h : endWith r fin s = .next t) (hfin : ∀ x, (fin x s).status = some .ok) (hbad : t.status ≠ some .ok) :
    ∃ k, t = s.raise k := by
  obtain ⟨x, -, rfl⟩ | ⟨k, -, rfl⟩ := endWith_next h
  · exact absurd (hfin x) hbad
  · exact ⟨k, rfl⟩

/-! ### The four operations -/

theorem exec_construct (s : State) :
    exec .construct s = endWith (constructHeader s.fields) State.endHeader s := rfl

theorem exec_checksum (s : State) : exec .checksum s = .next (s.raise .notSupported) := rfl

/-- R136: an operation that ends with a status other than OK has made ERROR ENTRY and nothing else. -/
theorem exec_failed {i : Instr} {s t : State} (hi : IsOperation i) (h : exec i s = .next t)
    (hbad : t.status ≠ some .ok) : ∃ k, t = s.raise k := by
  obtain rfl | rfl | rfl | rfl := hi
  · exact endWith_failed (exec_decode s ▸ h) (fun hd => State.endHeader_status hd s) hbad
  · exact endWith_failed (exec_construct s ▸ h) (fun hd => State.endHeader_status hd s) hbad
  · exact endWith_failed (exec_encode s ▸ h) (fun m => State.endBytes_status m s) hbad
  · exact ⟨.notSupported, by simpa [exec_checksum] using h.symm⟩

/-- Every operation answers after ERROR ENTRY what it answers before: it reads operands only, which ERROR
ENTRY keeps, and it overwrites the rest. -/
theorem exec_after_raise {j : Instr} (hj : IsOperation j) (l : ErrorKind) (s : State) :
    exec j (s.raise l) = exec j s := by
  obtain rfl | rfl | rfl | rfl := hj
  · exact endWith_after_raise (decodeHeader s.src s.offset) fun hd => State.endHeader_raise hd l s
  · exact endWith_after_raise (constructHeader s.fields) fun hd => State.endHeader_raise hd l s
  · exact endWith_after_raise (encodeHeader s.header s.bufPresent s.dst s.offset)
      fun m => State.endBytes_raise m l s
  · simp [exec_checksum]

/-- Settles O31: the failed operation has left its error entry alone, and no operation sees one. -/
theorem failedOperationLeavesNoTrace : Obligations.FailedOperationLeavesNoTrace := by
  intro s t i j hi hj hexec hbad
  obtain ⟨k, rfl⟩ := exec_failed hi hexec hbad
  exact ⟨exec_after_raise hj k s, (exec_after_raise hi k s).trans hexec⟩

end Sys2Proof.Machine
end

section
/-! PROOFS. The three formats: decoding and encoding are inverse to each other, and each kind byte has one row
(spec/30_encoding.md sections 2 to 5; opcode_table.json). -/

namespace Sys2Proof.Machine

/-! ### The fixed prefix -/

/-- The prefix decoder looks at the bytes of the prefix alone. -/
theorem decodeFixedPrefix_append {bs tl : List Byte} {p : FixedPrefix}
    (h : decodeFixedPrefix bs = .ok (p, tl)) (rest : List Byte) :
    decodeFixedPrefix (bs ++ rest) = .ok (p, tl ++ rest) := by
  rw [decodeFixedPrefix.eq_def] at h
  split at h
  · cases h
    rfl
  · cases h

/-- The bytes a fixed prefix was decoded from, the unassigned bits included. -/
theorem prefixBytes_of_decodeFixedPrefix {bs rest : List Byte} {p : FixedPrefix}
    (h : decodeFixedPrefix bs = .ok (p, rest)) : prefixBytes p ++ rest = bs := by
  rw [decodeFixedPrefix.eq_def] at h
  split at h
  next b0 b1 b2 b3 b4 b5 b6 b7 b8 b9 b10 b11 b12 b13 b14 b15 b16 b17 b18 b19 tl =>
    cases h
    have h12 : byte12 (nibbleOf b12) (unassignedOf b12) (unpackFlags b12 b13).ns = b12 :=
      byte12_of_parts b12
    simp only [prefixBytes, split2_join2, split4_join4, h12, flagsByte_unpack, List.cons_append,
      List.nil_append]
  next => cases h

/-! ### Operation selects -/

/-- A select byte with its upper six bits 0 is the code of the operation it names (R62). -/
theorem encode_decodeOp : ∀ b : Byte, b.extractLsb' 2 6 = 0 →
    encode (decodeOp (b.extractLsb' 0 2)) = [b] := by decide

theorem decodeOp_format (op : BitVec 2) : (decodeOp op).format = .op := by
  revert op
  decide

/-! ### Option records -/

/-- The record decoder on a TLV record whose length byte is there (R58). -/
theorem decode_option_lengthByte {k : Byte} (hk : 2 ≤ k.toNat) (len : Byte) (rest : List Byte) :
    decode .option (k :: len :: rest) =
      .ok (tlvOfKind k len (rest.take (len.toNat - 2)), rest.drop (len.toNat - 2)) := by
  obtain ⟨hEol, hNop⟩ := kind_ne_of_ge hk
  simp only [decode, decodeRecord, if_neg hEol, if_neg hNop]

/-- A TLV kind with no length byte after it (log 11). -/
theorem decode_option_noLengthByte {k : Byte} (hk : 2 ≤ k.toNat) :
    decode .option [k] = .ok (tlvOfKind k 0 [], []) := by
  obtain ⟨hEol, hNop⟩ := kind_ne_of_ge hk
  simp only [decode, decodeRecord, if_neg hEol, if_neg hNop]

/-- A well-formed TLV record of any row is read back from its bytes. -/
theorem decode_encode_tlv {i : Instr} {k len : Byte} {value : List Byte} (h : IsTlv i k len value)
    (hw : i.wf = true) (rest : List Byte) : decode .option (encode i ++ rest) = .ok (i, rest) := by
  obtain ⟨henc, -, hwf, hk⟩ := h.syntax_facts
  rw [hwf, tlvWf, Bool.and_eq_true, decide_eq_true_eq, decide_eq_true_eq] at hw
  obtain ⟨-, hlen⟩ := hw
  rw [henc, List.cons_append, List.cons_append, decode_option_lengthByte hk, ← hlen, List.take_left,
    List.drop_left, h.row_unique]

/-- Settles O1: the operations and the two short records by computation, the prefix by its fields, the seven
TLV rows as one record form. -/
theorem decodeOfEncodeIsIdentity : Obligations.DecodeOfEncodeIsIdentity := by
  intro i rest hw
  cases i with
  | decode | construct | encode | checksum => rfl
  | hdr20 p =>
    have h := decodeFixedPrefix_append (decodeFixedPrefix_prefixBytes p) rest
    simp only [Instr.format, encode, decode, h, List.nil_append]
  | optEol | optNop => rfl
  | optTlvK02 lo len value => exact decode_encode_tlv (.k02 lo len value) hw rest
  | optTlvK04 lo len value => exact decode_encode_tlv (.k04 lo len value) hw rest
  | optTlvK08 lo len value => exact decode_encode_tlv (.k08 lo len value) hw rest
  | optTlvK10 lo len value => exact decode_encode_tlv (.k10 lo len value) hw rest
  | optTlvK20 lo len value => exact decode_encode_tlv (.k20 lo len value) hw rest
  | optTlvK40 lo len value => exact decode_encode_tlv (.k40 lo len value) hw rest
  | optTlvK80 lo len value => exact decode_encode_tlv (.k80 lo len value) hw rest

/-- A well-formed record is made of the bytes it was decoded from. -/
theorem encode_of_decode_option {bs rest : List Byte} {i : Instr}
    (h : decode .option bs = .ok (i, rest)) (hw : i.wf = true) :
    i.format = .option ∧ encode i ++ rest = bs := by
  match bs with
  | [] => cases h
  | k :: tl =>
    by_cases hEol : k = Config.kindEol
    · subst hEol
      cases h
      exact ⟨rfl, rfl⟩
    by_cases hNop : k = Config.kindNop
    · subst hNop
      cases h
      exact ⟨rfl, rfl⟩
    have hk := kind_ge_of_ne hEol hNop
    match tl with
    | [] =>
      cases (decode_option_noLengthByte hk).symm.trans h
      rw [tlvOfKind_wf 0 [] hk] at hw
      exact absurd hw (by decide)
    | len :: tl =>
      cases (decode_option_lengthByte hk len tl).symm.trans h
      obtain ⟨henc, hfmt, -, -⟩ := (isTlv_tlvOfKind k len (tl.take (len.toNat - 2)) hk).syntax_facts
      exact ⟨hfmt, by rw [henc, List.cons_append, List.cons_append, List.take_append_drop]⟩

/-- Settles O2: format by format, each decoder keeps every bit of the bytes it takes. -/
theorem encodeOfDecodeIsIdentity : Obligations.EncodeOfDecodeIsIdentity := by
  intro f bs i rest h hw
  cases f with
  | op =>
    match bs with
    | [] => cases h
    | b :: tl =>
      rw [decode] at h
      split at h
      next hb =>
        cases h
        exact ⟨decodeOp_format _, by rw [encode_decodeOp b hb, List.singleton_append]⟩
      next => cases h
  | header =>
    rw [decode] at h
    split at h
    next p tl hp =>
      cases h
      exact ⟨rfl, prefixBytes_of_decodeFixedPrefix hp⟩
    next => cases h
  | option => exact encode_of_decode_option h hw

/-! ### The rows of the opcode table -/

/-- Any two option rows differ on a bit that both fix. -/
theorem optionRows_differ :
    optionRows.Pairwise fun r r' => r.1 &&& r'.2 ≠ r'.1 &&& r.2 := by decide

/-- No kind byte matches two option rows: it would agree with both on the bits both fix. -/
theorem optionRows_disjoint {k : Byte} {r r' : Byte × Byte} (hr : r ∈ optionRows)
    (hr' : r' ∈ optionRows) (h : k &&& r.2 = r.1) (h' : k &&& r'.2 = r'.1) : r' = r := by
  have hsymm : Std.Symm fun r r' : Byte × Byte => r.1 &&& r'.2 ≠ r'.1 &&& r.2 :=
    ⟨fun _ _ hd => hd.symm⟩
  by_contra hne
  refine optionRows_differ.forall hr' hr hne ?_
  rw [← h, ← h', BitVec.and_assoc, BitVec.and_assoc, BitVec.and_comm r.2]

/-- The (match, mask) pair of a TLV row is in the table, and the row's kinds match it. -/
theorem IsTlv.kindRow_matches {i : Instr} {k len : Byte} {value : List Byte} (h : IsTlv i k len value) :
    ∃ r ∈ optionRows, i.kindRow = some r ∧ k &&& r.2 = r.1 := by
  cases h with
  | k02 lo => exact ⟨(0x02, 0xFE), by decide, rfl, by revert lo; decide⟩
  | k04 lo => exact ⟨(0x04, 0xFC), by decide, rfl, by revert lo; decide⟩
  | k08 lo => exact ⟨(0x08, 0xF8), by decide, rfl, by revert lo; decide⟩
  | k10 lo => exact ⟨(0x10, 0xF0), by decide, rfl, by revert lo; decide⟩
  | k20 lo => exact ⟨(0x20, 0xE0), by decide, rfl, by revert lo; decide⟩
  | k40 lo => exact ⟨(0x40, 0xC0), by decide, rfl, by revert lo; decide⟩
  | k80 lo => exact ⟨(0x80, 0x80), by decide, rfl, by revert lo; decide⟩

/-- What a kind byte decodes to belongs to a row of the table that the kind matches. -/
theorem kindRow_of_decode {k : Byte} {rest tl : List Byte} {i : Instr}
    (h : decode .option (k :: rest) = .ok (i, tl)) :
    ∃ r ∈ optionRows, i.kindRow = some r ∧ k &&& r.2 = r.1 := by
  by_cases hEol : k = Config.kindEol
  · subst hEol
    cases h
    exact ⟨(0x00, 0xFF), by decide, rfl, rfl⟩
  by_cases hNop : k = Config.kindNop
  · subst hNop
    cases h
    exact ⟨(0x01, 0xFF), by decide, rfl, rfl⟩
  have hk := kind_ge_of_ne hEol hNop
  obtain ⟨len, value, t, hdec⟩ := decode_option_tlv rest
  cases (hdec k hk).symm.trans h
  exact (isTlv_tlvOfKind k len value hk).kindRow_matches

/-- Settles O4: the decoded instruction's row matches, and the rows are disjoint. -/
theorem optionRowsPartitionTheKinds : Obligations.OptionRowsPartitionTheKinds := by
  intro k rest i tl h
  obtain ⟨r, hr, hrow, hmatch⟩ := kindRow_of_decode h
  exact ⟨r, hr, hrow, hmatch, fun r' hr' hmatch' => optionRows_disjoint hr hr' hmatch hmatch'⟩

/-- Settles O5: the decoder computes on fixed words. -/
theorem specWordsDecodeAsSpecified : Obligations.SpecWordsDecodeAsSpecified :=
  ⟨rfl, rfl, rfl, rfl, rfl, rfl, rfl, rfl⟩

/-! ### Bytes 12 and 13 -/

/-- Settles O7: byte 12 is its nibble and `ns` with nothing between, and both come back from their bits. -/
theorem flagsSurvivePacking : Obligations.FlagsSurvivePacking := by
  constructor
  · intro hl f h
    rw [lenByte, byte12_toNat, lengthNibble_toNat h]
  · intro f hl h4 h60
    obtain ⟨hnibble, -, -⟩ := byte12_parts (lengthNibble hl) 0 f.ns
    exact ⟨unpackFlags_pack _ _ f, by rw [lenByte, hnibble, nibbleLength_lengthNibble h4 h60]⟩

end Sys2Proof.Machine
end

section
/-! PROOFS. DECODE, whole: everything it can answer, the options region it reads, what its answer depends on
(spec/41_decode.md R81 to R93). -/

namespace Sys2Proof.Machine

/-! ### The options region -/

/-- The records of decodable entries are read back in order, one turn for each (R88, R89). -/
theorem parseRegion_records {os : List Entry} (hdec : ∀ o ∈ os, DecodableEntry o)
    (hl : ∀ o ∈ os, optWireLen o < 256) (turns : Nat) (tail : List Byte) (opts : List Entry) :
    parseRegion (turns + os.length) (entriesWire os ++ tail) opts =
      parseRegion turns tail (opts ++ os) := by
  induction os generalizing opts with
  | nil => rw [entriesWire, List.nil_append, List.append_nil, List.length_nil, Nat.add_zero]
  | cons o os ih =>
    obtain ⟨⟨h0, hval⟩, hdecs⟩ := List.forall_mem_cons.mp hdec
    obtain ⟨ho, hls⟩ := List.forall_mem_cons.mp hl
    have ih' := ih hdecs hls (opts ++ [o])
    rw [List.append_assoc, List.singleton_append] at ih'
    rw [entriesWire, List.append_assoc, List.length_cons, ← Nat.add_assoc, ← ih']
    by_cases h1 : o.kind = Config.kindNop
    · have hnop : o = ⟨Config.kindNop, []⟩ := by rw [← h1, ← hval h1]
      rw [entryBytes, if_pos h1, List.singleton_append, parseRegion_nop, hnop]
    · rw [optWireLen, if_neg h1] at ho
      rw [entryBytes, if_neg h1, parseRegion_tlvBytes h0 h1 ho]

/-- R133: the three causes of MalformedOption, at the front of what is left of the region. -/
theorem parseRegion_malformed {k : Byte} {tail : List Byte} (hk : 2 ≤ k.toNat)
    (hbad : tail = [] ∨
      ∃ len rest, tail = len :: rest ∧ (len.toNat < 2 ∨ 2 + rest.length < len.toNat))
    (turns : Nat) (opts : List Entry) :
    parseRegion (turns + 1) (k :: tail) opts = raising .malformedOption := by
  obtain ⟨h0, h1⟩ := kind_ne_of_ge hk
  rw [parseRegion_cons, if_neg h0, if_neg h1]
  obtain rfl | ⟨len, rest, rfl, hlen⟩ := hbad
  · rfl
  · have hlen' : len.toNat < 2 ∨ rest.length < len.toNat - 2 := by omega
    simp only [if_pos hlen']

/-- The option loop returns a list or raises MalformedOption (R86 to R91). -/
theorem parseRegion_outcome (turns : Nat) (bs : List Byte) (opts : List Entry) :
    (∃ os, parseRegion turns bs opts = .ok os) ∨
      parseRegion turns bs opts = raising .malformedOption := by
  induction turns generalizing bs opts with
  | zero => exact .inl ⟨opts, rfl⟩
  | succ turns ih =>
    match bs with
    | [] => exact .inl ⟨opts, rfl⟩
    | k :: rest =>
      rw [parseRegion_cons]
      split
      · exact .inl ⟨opts, rfl⟩
      split
      · exact ih _ _
      match rest with
      | [] => exact .inr rfl
      | len :: rest' =>
        show (∃ os, ite _ _ _ = _) ∨ ite _ _ _ = _
        split
        · exact .inr rfl
        · exact ih _ _

theorem decodable_append {opts : List Entry} {e : Entry} (hopts : ∀ o ∈ opts, DecodableEntry o)
    (he : DecodableEntry e) : ∀ o ∈ opts ++ [e], DecodableEntry o :=
  List.forall_mem_append.mpr ⟨hopts, List.forall_mem_singleton.mpr he⟩

/-- Every entry the option loop appends is decodable: an EOL ends it, a NOP has no value (R93). -/
theorem parseRegion_decodable {turns : Nat} {bs : List Byte} {opts os : List Entry}
    (h : parseRegion turns bs opts = .ok os) (hopts : ∀ o ∈ opts, DecodableEntry o) :
    ∀ o ∈ os, DecodableEntry o := by
  induction turns generalizing bs opts with
  | zero => cases h; exact hopts
  | succ turns ih =>
    match bs with
    | [] => cases h; exact hopts
    | k :: rest =>
      rw [parseRegion_cons] at h
      by_cases h0 : k = Config.kindEol
      · rw [if_pos h0] at h
        cases h
        exact hopts
      rw [if_neg h0] at h
      by_cases h1 : k = Config.kindNop
      · rw [if_pos h1] at h
        exact ih h (decodable_append hopts ⟨by decide, fun _ => rfl⟩)
      rw [if_neg h1] at h
      match rest with
      | [] => cases h
      | len :: rest' =>
        change ite _ _ _ = _ at h
        split at h
        · cases h
        · exact ih h (decodable_append hopts ⟨h0, fun hn => absurd hn h1⟩)

/-- The entries of a region take no more bytes than it has. -/
theorem RegionOf.entriesWireLen_le {os : List Entry} {bs : List Byte} (h : RegionOf os bs) :
    entriesWireLen os ≤ bs.length := by
  rw [← entriesWire_length]
  obtain rfl | ⟨pad, rfl⟩ := h
  · exact Nat.le_refl _
  · rw [List.length_append]
    exact Nat.le_add_right _ _

/-! ### Everything DECODE can answer -/

/-- DECODE of a header of at least 20 declared bytes whose region lies in SRC. -/
theorem decodeHeader_of_region {src : Memory} {offset : Nat} {b12 : Byte} {region : List Byte}
    (hin : offset + 20 ≤ src.len) (h12 : src.get (offset + 12) = .ok b12) (h5 : 5 ≤ b12.toNat / 16)
    (hr : src.readBytes (offset + 20) (4 * (b12.toNat / 16) - 20) = .ok region) :
    ∃ p, nibbleLength p.lengthNibble = 4 * (b12.toNat / 16) ∧ decodeHeader src offset =
      (parseRegion region.length region [] >>= fun opts =>
        .ok { headerOfPrefix p with options := opts }) := by
  obtain ⟨b, hb⟩ := Memory.exists_bytes hin
  obtain rfl : b 12 = b12 := Except.ok.inj ((hb 12 (by decide)).symm.trans h12)
  have hnl := nibbleLength_prefixOfBytes b
  obtain ⟨hlen, -⟩ := Memory.readBytes_ok hr
  rw [← hnl] at hr hlen
  exact ⟨prefixOfBytes b, hnl, by
    rw [decodeHeader_of_bytes hb, decodeRest_region (by omega) hr hin, hlen]⟩

/-- Everything DECODE can answer: one of the two bounds checks fails (R81, R84), there is no options region
(R85), or the region is read (R86). -/
theorem decodeHeader_cases (src : Memory) (offset : Nat) :
    decodeHeader src offset = raising .bufferTooShort ∨
    (∃ p, decodeHeader src offset = .ok (headerOfPrefix p)) ∨
    ∃ p region, region.length = nibbleLength p.lengthNibble - 20 ∧ decodeHeader src offset =
      (parseRegion region.length region [] >>= fun opts =>
        .ok { headerOfPrefix p with options := opts }) := by
  by_cases h20 : src.len < offset + 20
  · exact .inl (decodeHeader_short h20)
  have hin : offset + 20 ≤ src.len := by omega
  obtain ⟨b, hb⟩ := Memory.exists_bytes hin
  by_cases hle : nibbleLength (prefixOfBytes b).lengthNibble ≤ 20
  · exact .inr (.inl ⟨_, by rw [decodeHeader_of_bytes hb, decodeRest_of_noOptions hle]⟩)
  by_cases hlong : src.len < offset + nibbleLength (prefixOfBytes b).lengthNibble
  · exact .inl (by rw [decodeHeader_of_bytes hb, decodeRest_of_tooLong (by omega) hlong])
  obtain ⟨region, hr⟩ := Memory.readBytes_fits (m := src) (a := offset + 20)
    (n := nibbleLength (prefixOfBytes b).lengthNibble - 20) (by omega)
  obtain ⟨hlen, -⟩ := Memory.readBytes_ok hr
  exact .inr (.inr ⟨_, region, hlen, by
    rw [decodeHeader_of_bytes hb, decodeRest_region (by omega) hr hin, hlen]⟩)

/-- DECODE never leaves SRC and raises two kinds of error only (R93 item 1). -/
theorem decodeHeader_outcome (src : Memory) (offset : Nat) :
    (∃ h, decodeHeader src offset = .ok h) ∨ decodeHeader src offset = raising .bufferTooShort ∨
      decodeHeader src offset = raising .malformedOption := by
  obtain h | ⟨p, h⟩ | ⟨p, region, -, h⟩ := decodeHeader_cases src offset
  · exact .inr (.inl h)
  · exact .inl ⟨_, h⟩
  · obtain ⟨os, hos⟩ | hbad := parseRegion_outcome region.length region []
    · exact .inl ⟨_, by rw [h, hos, op_bind_ok]⟩
    · exact .inr (.inr (by rw [h, hbad, op_bind_error]))

/-- The shape of a decoded Header: a length the nibble can hold, and decodable entries that fit in the options
region (R93 item 4). -/
theorem decodeHeader_shape {src : Memory} {offset : Nat} {h : Header}
    (hd : decodeHeader src offset = .ok h) : ResultLengthOk h ∧ (∀ o ∈ h.options, DecodableEntry o) ∧
      entriesWireLen h.options ≤ max 20 h.headerLength - 20 := by
  obtain hx | ⟨p, hx⟩ | ⟨p, region, hlen, hx⟩ := decodeHeader_cases src offset
  · cases hx.symm.trans hd
  · cases hx.symm.trans hd
    exact ⟨nibbleLength_bounds p.lengthNibble, fun _ ho => absurd ho (List.not_mem_nil),
      Nat.zero_le _⟩
  · obtain ⟨os, hos, hh⟩ := op_bind_eq_ok (hx.symm.trans hd)
    cases hh
    obtain ⟨new, hnew, hregion⟩ := regionOf_of_parseRegion (Nat.le_refl _) hos
    obtain rfl : os = new := by simpa using hnew
    have hle := hregion.entriesWireLen_le
    refine ⟨nibbleLength_bounds p.lengthNibble,
      parseRegion_decodable hos fun _ ho => absurd ho (List.not_mem_nil), ?_⟩
    show entriesWireLen os ≤ max 20 (nibbleLength p.lengthNibble) - 20
    omega

/-! ### The statements about whole DECODEs -/

theorem exec_decode_of_raise {s : State} {k : ErrorKind}
    (hd : decodeHeader s.src s.offset = raising k) : exec .decode s = .next (s.raise k) := by
  rw [exec_decode, hd, endWith_raise]

/-- Settles O15: the region is read record by record, and then nothing or an EOL ends the list. -/
theorem decodeReturnsTheRecordsInWireOrder : Obligations.DecodeReturnsTheRecordsInWireOrder := by
  intro s b12 os tail hin h12 h5 hr hdec htail
  obtain ⟨p, hnl, hd⟩ := decodeHeader_of_region hin h12 h5 hr
  obtain ⟨hlen, -⟩ := Memory.readBytes_ok hr
  rw [List.length_append, entriesWire_length] at hlen
  have hcount := length_le_entriesWireLen os
  have h12lt := b12.isLt
  have hrecords := parseRegion_records hdec (turns := entriesWireLen os + tail.length - os.length)
    (fun o ho => by have := optWireLen_le_of_mem ho; omega) tail []
  have hend : ∀ turns, parseRegion turns tail os = .ok os := fun turns => by
    obtain rfl | ⟨pad, rfl⟩ := htail
    · cases turns <;> rfl
    · exact parseRegion_eol turns pad os
  rw [Nat.sub_add_cancel (by omega), List.nil_append, hend] at hrecords
  rw [List.length_append, entriesWire_length, hrecords, op_bind_ok] at hd
  exact ⟨_, rfl, hnl, exec_decode_of_ok hd⟩

/-- Settles O16: after the records before it, the malformed one raises whatever the list so far. -/
theorem decodeRefusesMalformedRecord : Obligations.DecodeRefusesMalformedRecord := by
  intro s b12 os k tail hin h12 h5 hr hdec hk hbad
  obtain ⟨p, -, hd⟩ := decodeHeader_of_region hin h12 h5 hr
  obtain ⟨hlen, -⟩ := Memory.readBytes_ok hr
  rw [List.length_append, entriesWire_length, List.length_cons] at hlen
  have hcount := length_le_entriesWireLen os
  have h12lt := b12.isLt
  have hrecords := parseRegion_records hdec (turns := entriesWireLen os + tail.length - os.length + 1)
    (fun o ho => by have := optWireLen_le_of_mem ho; omega) (k :: tail) []
  rw [parseRegion_malformed hk hbad] at hrecords
  rw [List.length_append, entriesWire_length, List.length_cons,
    show entriesWireLen os + (tail.length + 1) =
      entriesWireLen os + tail.length - os.length + 1 + os.length by omega, hrecords, op_bind_error] at hd
  exact exec_decode_of_raise hd

/-- Settles O14: below 5 the nibble declares no more than the prefix, so nothing is left to check or read. -/
theorem decodeAcceptsShortNibble : Obligations.DecodeAcceptsShortNibble := by
  intro s b12 hin h12 h5
  obtain ⟨b, hb⟩ := Memory.exists_bytes hin
  obtain rfl : b 12 = b12 := Except.ok.inj ((hb 12 (by decide)).symm.trans h12)
  have hnl := nibbleLength_prefixOfBytes b
  refine ⟨headerOfPrefix (prefixOfBytes b), rfl, hnl, exec_decode_of_ok ?_⟩
  rw [decodeHeader_of_bytes hb, decodeRest_of_noOptions (by omega)]

/-- Settles O17: a Header or one of two errors, and only the outputs and the phase are written. -/
theorem decodeIsTotal : Obligations.DecodeIsTotal := by
  intro s
  obtain ⟨h, hd⟩ | hd | hd := decodeHeader_outcome s.src s.offset
  · exact ⟨_, exec_decode_of_ok hd, rfl, .inl ⟨rfl, h, rfl⟩⟩
  · exact ⟨_, exec_decode_of_raise hd, rfl, .inr (.inl ⟨rfl, rfl⟩)⟩
  · exact ⟨_, exec_decode_of_raise hd, rfl, .inr (.inr ⟨rfl, rfl⟩)⟩

/-- Settles O18: the entries fit in the region, so there are at most 40 of at most 40 bytes each. -/
theorem decodedHeaderShape : Obligations.DecodedHeaderShape := by
  intro s t h hexec hres
  obtain ⟨⟨h4, h60⟩, hdec, hfit⟩ := decodeHeader_shape (decodeHeader_of_exec hexec hres)
  have hcount := length_le_entriesWireLen h.options
  refine ⟨h4, h60, by omega, fun o ho => ?_, hfit⟩
  obtain ⟨h0, h1⟩ := hdec o ho
  refine ⟨h0, h1, ?_⟩
  by_cases hn : o.kind = Config.kindNop
  · rw [h1 hn]
    exact Nat.zero_le _
  · have hle := optWireLen_le_of_mem ho
    rw [optWireLen, if_neg hn] at hle
    omega

/-! ### What DECODE depends on -/

/-- A run of reads depends on the bytes it reads. -/
theorem Memory.readBytes_congr {m m' : Memory} {a a' n : Nat}
    (h : ∀ k, k < n → m.get (a + k) = m'.get (a' + k)) : m.readBytes a n = m'.readBytes a' n := by
  induction n generalizing a a' with
  | zero => rfl
  | succ n ih =>
    have hhead : m.get a = m'.get a' := h 0 (by omega)
    have htail := ih (a := a + 1) (a' := a' + 1) fun k hk => by
      have := h (k + 1) (by omega)
      rwa [show a + (k + 1) = a + 1 + k by omega, show a' + (k + 1) = a' + 1 + k by omega] at this
    rw [Memory.readBytes, Memory.readBytes, hhead, htail]

/-- An address is outside one buffer when it reads as an address outside another. -/
theorem Memory.len_le_of_get_eq {m m' : Memory} {a a' : Nat} (h : m.get a = m'.get a')
    (hm : m.len ≤ a) : m'.len ≤ a' := by
  by_contra hlt
  rw [Memory.get_of_ge hm, Memory.get_of_lt (by omega)] at h
  cases h

/-- DECODE computes the same from headers of the same bytes, wherever they lie (R93 item 5). -/
theorem decodeHeader_congr {src src' : Memory} {offset offset' : Nat} {b12 : Byte}
    (h12 : src.get (offset + 12) = .ok b12)
    (h : ∀ k, k < max 20 (4 * (b12.toNat / 16)) → src.get (offset + k) = src'.get (offset' + k)) :
    decodeHeader src offset = decodeHeader src' offset' := by
  have hlen : ∀ n, 0 < n → n ≤ max 20 (4 * (b12.toNat / 16)) →
      (src.len < offset + n ↔ src'.len < offset' + n) := fun n hpos hle => by
    have hlast := h (n - 1) (by omega)
    constructor
    · intro hlt
      have := Memory.len_le_of_get_eq hlast (by omega)
      omega
    · intro hlt
      have := Memory.len_le_of_get_eq hlast.symm (by omega)
      omega
  by_cases h20 : src.len < offset + 20
  · rw [decodeHeader_short h20, decodeHeader_short ((hlen 20 (by omega) (by omega)).mp h20)]
  have hin : offset + 20 ≤ src.len := by omega
  have hin' : offset' + 20 ≤ src'.len := by have := hlen 20 (by omega) (by omega); omega
  obtain ⟨b, hb⟩ := Memory.exists_bytes hin
  obtain rfl : b 12 = b12 := Except.ok.inj ((hb 12 (by decide)).symm.trans h12)
  have hb' : ∀ k, k < 20 → src'.get (offset' + k) = .ok (b k) := fun k hk => by
    rw [← h k (by omega), hb k hk]
  have hnl := nibbleLength_prefixOfBytes b
  rw [decodeHeader_of_bytes hb, decodeHeader_of_bytes hb']
  by_cases hle : nibbleLength (prefixOfBytes b).lengthNibble ≤ 20
  · rw [decodeRest_of_noOptions hle, decodeRest_of_noOptions hle]
  have hsame := hlen (nibbleLength (prefixOfBytes b).lengthNibble) (by omega) (by omega)
  by_cases hlong : src.len < offset + nibbleLength (prefixOfBytes b).lengthNibble
  · rw [decodeRest_of_tooLong (by omega) hlong, decodeRest_of_tooLong (by omega) (hsame.mp hlong)]
  obtain ⟨region, hr⟩ := Memory.readBytes_fits (m := src) (a := offset + 20)
    (n := nibbleLength (prefixOfBytes b).lengthNibble - 20) (by omega)
  have hr' := hr
  rw [Memory.readBytes_congr (m' := src') (a' := offset' + 20) fun k hk => by
    rw [Nat.add_assoc, Nat.add_assoc]
    exact h (20 + k) (by omega)] at hr'
  rw [decodeRest_region (by omega) hr hin, decodeRest_region (by omega) hr' hin']

/-- Settles O19: both DECODEs end with the same computation. -/
theorem decodeDependsOnHeaderBytesOnly : Obligations.DecodeDependsOnHeaderBytesOnly := by
  intro s u s' u' b12 h12 h hs hu
  rw [exec_decode] at hs hu
  rw [← decodeHeader_congr h12 h] at hu
  obtain ⟨hd, hr, rfl⟩ | ⟨k, hr, rfl⟩ := endWith_next hs
  · rw [hr] at hu
    cases hu
    exact ⟨rfl, rfl⟩
  · rw [hr] at hu
    cases hu
    exact ⟨rfl, rfl⟩

end Sys2Proof.Machine
end

section
/-! PROOFS. The lengths of a Header, CONSTRUCT, and ENCODE, whole (spec/40_construct.md R70 to R73;
spec/42_encode.md R100 to R113). -/

namespace Sys2Proof.Machine

/-! ### Lengths -/

theorem entriesWireLen_eq_sum (os : List Entry) :
    entriesWireLen os = (os.map optWireLen).sum := by
  induction os with
  | nil => rfl
  | cons o os ih => rw [entriesWireLen, ih, List.map_cons, List.sum_cons]

/-- Settles O9: the length function is the sum over the entries, and the bytes written are as many. -/
theorem computedLengthCountsWireBytes : Obligations.ComputedLengthCountsWireBytes := by
  refine ⟨fun os => ?_, headerWire_length⟩
  rw [computedLength, optionsWireLen, entriesWireLen_eq_sum]
  rfl

/-- Settles O10: the legal lengths bound the region, and the region bounds the entries in it. -/
theorem validHeaderBounds : Obligations.ValidHeaderBounds := by
  intro h hv
  obtain ⟨h20, h4, h60, hopts⟩ := lengths_of_valid hv
  have hentries : h.options ≠ [] → entriesWireLen h.options + 1 = h.headerLength - 20 := fun ho => by
    rw [← hopts, optionsWireLen, if_neg ho]
  refine ⟨⟨h4, by omega, by omega⟩, hopts, fun ho => ?_, ?_, fun o ho hk => ?_,
    headerWire_length_of_valid hv⟩
  · have := hentries ho
    omega
  · have hcount := length_le_entriesWireLen h.options
    by_cases ho : h.options = []
    · rw [ho]
      exact Nat.zero_le _
    · have := hentries ho
      omega
  · have hle := optWireLen_le_of_mem ho
    have := hentries (List.ne_nil_of_mem ho)
    rw [optWireLen, if_neg hk] at hle
    omega

/-! ### CONSTRUCT -/

theorem constructHeader_of_valid {f : Header} (hv : Valid f) : constructHeader f = .ok f := by
  obtain ⟨h20, hlen, h4, h60⟩ := hv
  rw [constructHeader, if_neg (by omega), if_neg (not_not_intro hlen), if_neg (by omega)]

theorem constructHeader_of_invalid {f : Header} (hv : ¬ Valid f) :
    constructHeader f = raising .invalidHeaderLength := by
  rw [constructHeader]
  split
  · rfl
  next h20 =>
  split
  · rfl
  next hlen =>
  rw [if_pos]
  by_contra hshort
  exact hv ⟨by omega, not_not.mp hlen, by omega, by omega⟩

/-- Settles O8: the predicate is decided clause by clause. -/
theorem constructAcceptsExactlyTheValid : Obligations.ConstructAcceptsExactlyTheValid := by
  intro s
  rw [exec_construct]
  constructor
  · intro hv
    rw [constructHeader_of_valid hv]
    rfl
  · intro hv
    rw [constructHeader_of_invalid hv]
    rfl

/-! ### Everything ENCODE can answer -/

theorem encodeStart_invalid {h : Header} (hv : ¬ Valid h) (bufPresent : Bool) (dst : Memory)
    (offset : Nat) : encodeStart h bufPresent dst offset = raising .invalidHeaderLength := by
  rw [encodeStart, if_pos hv]

theorem encodeStart_short {h : Header} {bufPresent : Bool} {dst : Memory} {offset : Nat} (hv : Valid h)
    (hb : bufPresent = true) (hs : dst.len < offset + h.headerLength) :
    encodeStart h bufPresent dst offset = raising .bufferTooShort := by
  rw [encodeStart, if_neg (not_not_intro hv), if_pos ⟨hb, hs⟩]

/-- The two checks of ENCODE (R101, R103): the Header is valid, and there is room in the caller's buffer. -/
theorem encodeStart_cases (h : Header) (bufPresent : Bool) (dst : Memory) (offset : Nat) :
    (Valid h ∧ (bufPresent = true → offset + h.headerLength ≤ dst.len)) ∨
    encodeStart h bufPresent dst offset = raising .invalidHeaderLength ∨
    encodeStart h bufPresent dst offset = raising .bufferTooShort := by
  by_cases hv : Valid h
  · by_cases hs : bufPresent = true ∧ dst.len < offset + h.headerLength
    · exact .inr (.inr (encodeStart_short hv hs.1 hs.2))
    · exact .inl ⟨hv, fun hb => by by_contra hlt; exact hs ⟨hb, by omega⟩⟩
  · exact .inr (.inl (encodeStart_invalid hv bufPresent dst offset))

/-- An ENCODE whose checks raise has written nothing (R101, R103). -/
theorem exec_encode_of_raise {s : State} {k : ErrorKind}
    (h : encodeStart s.header s.bufPresent s.dst s.offset = raising k) :
    exec .encode s = .next (s.raise k) := by
  rw [exec_encode, encodeHeader, h]
  rfl

/-- Everything ENCODE can do: write the Header's bytes into the destination, or raise one of two errors. -/
theorem exec_encode_cases (s : State) :
    (Valid s.header ∧ (s.bufPresent = true → s.offset + s.header.headerLength ≤ s.dst.len) ∧
      ∃ out, (destination s.header s.bufPresent s.dst s.offset).1.writeBytes
          (destination s.header s.bufPresent s.dst s.offset).2 (headerWire s.header) = .ok out ∧
        exec .encode s = .next (s.endBytes out)) ∨
    exec .encode s = .next (s.raise .invalidHeaderLength) ∨
    exec .encode s = .next (s.raise .bufferTooShort) := by
  obtain ⟨hv, hf⟩ | h | h := encodeStart_cases s.header s.bufPresent s.dst s.offset
  · exact .inl ⟨hv, hf, exec_encode_of_valid hv hf⟩
  · exact .inr (.inl (exec_encode_of_raise h))
  · exact .inr (.inr (exec_encode_of_raise h))

/-! ### The statements about whole ENCODEs -/

/-- Settles O20: validity is checked first. -/
theorem encodeRefusesInvalidHeader : Obligations.EncodeRefusesInvalidHeader :=
  fun _ hv => exec_encode_of_raise (encodeStart_invalid hv _ _ _)

/-- Settles O21: the room in the caller's buffer is checked before the first write. -/
theorem encodeRefusesShortDestination : Obligations.EncodeRefusesShortDestination :=
  fun _ hv hb hs => exec_encode_of_raise (encodeStart_short hv hb hs)

/-- Settles O22: one run of writes from `offset` on, as long as the Header says. -/
theorem encodeIntoCallersBuffer : Obligations.EncodeIntoCallersBuffer := by
  intro s hw hv hb hf
  obtain ⟨out, hout, hexec⟩ := exec_encode_of_valid hv fun _ => hf
  have hdest : destination s.header s.bufPresent s.dst s.offset = (s.dst, s.offset) := if_pos hb
  rw [hdest] at hout
  have hlen := headerWire_length_of_valid hv
  refine ⟨out, ?_, Memory.writeBytes_len hout, Memory.writeBytes_wf hw hout, ?_, fun a ha => ?_⟩
  · rw [hexec, State.endBytes, if_pos hb]
  · rw [← hlen]
    exact Memory.readBytes_eq fun k hk => Memory.get_writeBytes_same hw hout hk
  · exact Memory.get_writeBytes_other hout (by rwa [hlen])

/-- Settles O23: the fresh buffer is the Header's bytes, and DST is not the destination. -/
theorem encodeIntoFreshBuffer : Obligations.EncodeIntoFreshBuffer := by
  intro s hv hb
  refine ⟨headerWire_length_of_valid hv, ?_⟩
  rw [exec_encode_fresh hv hb, State.endBytes, if_neg (by simp [hb])]

theorem entriesWire_eq_flatMap (os : List Entry) : entriesWire os = os.flatMap entryBytes := by
  induction os with
  | nil => rfl
  | cons o os ih => rw [entriesWire, ih, List.flatMap_cons]

/-- The options region written out: the entries in order, and one sentinel after a non-empty list (R108 to
R111). -/
theorem optionsWire_eq (os : List Entry) :
    optionsWire os = os.flatMap entryBytes ++ if os = [] then [] else [Config.kindEol] := by
  rw [optionsWire, entriesWire_eq_flatMap]
  split
  next ho => rw [ho]; rfl
  next => rfl

/-- Settles O25: what is read back after the prefix is the options region. -/
theorem encodeWritesTheOptionsAndOneSentinel : Obligations.EncodeWritesTheOptionsAndOneSentinel := by
  intro s hw hv hf
  obtain ⟨out, hexec, hread⟩ := exec_encode_reads_back hw hv hf
  obtain ⟨-, -, -, hopts⟩ := lengths_of_valid hv
  have hback := Memory.readBytes_back hread
  rw [prefixBytes_length, optionsWire_length, hopts, optionsWire_eq] at hback
  exact ⟨s.endBytes out, out, hexec, rfl, rfl, fun hb => by simp [hb], hback⟩

/-- Settles O26: the destination bytes or one of two errors, and DST is written in the first case only. -/
theorem encodeIsTotal : Obligations.EncodeIsTotal := by
  intro s
  obtain ⟨-, -, out, -, hexec⟩ | hexec | hexec := exec_encode_cases s
  · exact ⟨_, hexec, rfl, .inl ⟨rfl, out, rfl, rfl⟩⟩
  · exact ⟨_, hexec, rfl, .inr (.inl ⟨rfl, rfl, rfl⟩)⟩
  · exact ⟨_, hexec, rfl, .inr (.inr ⟨rfl, rfl, rfl⟩)⟩

/-! ### The four operations together -/

/-- Settles O30: CHECKSUM is its error entry. -/
theorem checksumIsNotSupported : Obligations.ChecksumIsNotSupported := exec_checksum

/-- What the host sees of a state when an operation has ended. -/
def SameOutputs (s u : State) : Prop :=
  s.status = u.status ∧ s.resultHeader = u.resultHeader ∧ s.resultBytes = u.resultBytes ∧ s.dst = u.dst

/-- One computation ends an operation with the same outputs from two states, when its good end does and DST is
the same before it. -/
theorem endWith_sameOutputs {α : Type} {r : Op α} {fin : α → State → State} {s u s' u' : State}
    (hdst : s.dst = u.dst) (hfin : ∀ x, SameOutputs (fin x s) (fin x u))
    (hs : endWith r fin s = .next s') (hu : endWith r fin u = .next u') : SameOutputs s' u' := by
  obtain ⟨x, rfl, rfl⟩ | ⟨k, rfl, rfl⟩ := endWith_next hs
  · cases hu
    exact hfin x
  · cases hu
    exact ⟨rfl, rfl, rfl, hdst⟩

/-- Settles O32: every operation computes from the operands, and its good end writes the outputs from them. -/
theorem outcomeDependsOnOperandsAlone : Obligations.OutcomeDependsOnOperandsAlone := by
  intro s u s' u' i hi hsrc hdst hoff hfields hheader hbuf hs hu
  have hend : ∀ h, SameOutputs (s.endHeader h) (u.endHeader h) := fun _ => ⟨rfl, rfl, rfl, hdst⟩
  obtain rfl | rfl | rfl | rfl := hi
  · rw [exec_decode] at hs hu
    rw [← hsrc, ← hoff] at hu
    exact endWith_sameOutputs hdst hend hs hu
  · rw [exec_construct] at hs hu
    rw [← hfields] at hu
    exact endWith_sameOutputs hdst hend hs hu
  · rw [exec_encode] at hs hu
    rw [← hheader, ← hbuf, ← hdst, ← hoff] at hu
    refine endWith_sameOutputs hdst (fun m => ⟨rfl, rfl, rfl, ?_⟩) hs hu
    rw [State.endBytes_dst, State.endBytes_dst, hbuf, hdst]
  · rw [exec_checksum] at hs hu
    cases hs
    cases hu
    exact ⟨rfl, rfl, rfl, hdst⟩

/-- Everything an operation can change: its outputs, its phase, and DST (10_state.md R19). -/
theorem exec_operation_frame {s t : State} {i : Instr} (hi : IsOperation i) (h : exec i s = .next t) :
    t = { s with status := t.status, resultHeader := t.resultHeader, resultBytes := t.resultBytes,
                 dst := t.dst, phase := .idle } ∧ (i ≠ .encode → t.dst = s.dst) := by
  obtain rfl | rfl | rfl | rfl := hi
  · obtain ⟨x, -, rfl⟩ | ⟨k, -, rfl⟩ := endWith_next (exec_decode s ▸ h) <;>
      exact ⟨rfl, fun _ => rfl⟩
  · obtain ⟨x, -, rfl⟩ | ⟨k, -, rfl⟩ := endWith_next (exec_construct s ▸ h) <;>
      exact ⟨rfl, fun _ => rfl⟩
  · obtain ⟨x, -, rfl⟩ | ⟨k, -, rfl⟩ := endWith_next (exec_encode s ▸ h) <;>
      exact ⟨rfl, fun hne => absurd rfl hne⟩
  · cases (exec_checksum s).symm.trans h
    exact ⟨rfl, fun _ => rfl⟩

/-- ENCODE changes no byte of DST outside the target range, and none without a caller's buffer (R113 item 2). -/
theorem exec_encode_dst_get {s t : State} (h : exec .encode s = .next t) {a : Nat}
    (ha : s.bufPresent = false ∨ a < s.offset ∨ s.offset + s.header.headerLength ≤ a) :
    t.dst.get a = s.dst.get a := by
  obtain ⟨hv, -, out, hout, hexec⟩ | hexec | hexec := exec_encode_cases s
  · cases hexec.symm.trans h
    rw [State.endBytes_dst]
    by_cases hb : s.bufPresent = true
    · have hdest : destination s.header s.bufPresent s.dst s.offset = (s.dst, s.offset) := if_pos hb
      rw [hdest] at hout
      rw [if_pos hb]
      refine Memory.get_writeBytes_other hout ?_
      rw [headerWire_length_of_valid hv]
      exact ha.resolve_left (by simp [hb])
    · rw [if_neg hb]
  · cases hexec.symm.trans h
    rfl
  · cases hexec.symm.trans h
    rfl

/-- Settles O33: the outputs, the phase and DST are all an operation writes, and ENCODE alone writes DST. -/
theorem operationFrame : Obligations.OperationFrame := by
  intro s t i hi h
  obtain ⟨hframe, hdst⟩ := exec_operation_frame hi h
  rw [hframe]
  refine ⟨rfl, rfl, rfl, rfl, rfl, rfl, rfl, rfl, rfl, fun _ => rfl, fun a ha => ?_⟩
  show t.dst.get a = s.dst.get a
  by_cases he : i = .encode
  · subst he
    exact exec_encode_dst_get h (ha.resolve_left (not_not_intro rfl))
  · rw [hdst he]

end Sys2Proof.Machine
end

section
/-! PROOFS. The fixed prefix and the option records as instructions, inside DECODE, inside ENCODE and out of
place, and the step that runs them (spec/41_decode.md R82 to R90; spec/42_encode.md R104 to R111). -/

namespace Sys2Proof.Machine

/-! ### Inside DECODE -/

theorem exec_hdr20_decodePrefix {s : State} (h : s.phase = .decodePrefix) (p : FixedPrefix) :
    exec (.hdr20 p) s = decodePrefixStep p s := by
  show execHdr20 p s = _
  rw [execHdr20, h]

/-- R84, second bounds check, inside a DECODE under way. -/
theorem decodePrefixStep_of_tooLong {s : State} {p : FixedPrefix}
    (hl : 20 < nibbleLength p.lengthNibble) (hs : s.src.len < s.offset + nibbleLength p.lengthNibble) :
    decodePrefixStep p s = .next (s.raise .bufferTooShort) := by
  rw [decodePrefixStep]
  exact if_pos ⟨hl, avail_lt.mpr hs⟩

/-- R85: no options region. -/
theorem decodePrefixStep_of_noOptions {s : State} {p : FixedPrefix}
    (hl : nibbleLength p.lengthNibble ≤ 20) :
    decodePrefixStep p s = .next (s.endHeader (headerOfPrefix p)) := by
  have hend : regionEndOf (nibbleLength p.lengthNibble) = 20 := Nat.max_eq_left hl
  rw [decodePrefixStep]
  refine (if_neg fun h => absurd h.1 (Nat.not_lt.mpr hl)).trans ?_
  rw [loopDecode_of_ge s (Nat.le_of_eq hend)]
  rfl

/-- R86: the option loop starts at header offset 20 with no entries. -/
theorem decodePrefixStep_of_options {s : State} {p : FixedPrefix}
    (hl : 20 < nibbleLength p.lengthNibble) (hf : s.offset + nibbleLength p.lengthNibble ≤ s.src.len) :
    decodePrefixStep p s = .next
      (s.setPhase (.decodeOptions ⟨headerOfPrefix p, 20, nibbleLength p.lengthNibble, []⟩)) := by
  have hend : regionEndOf (nibbleLength p.lengthNibble) = nibbleLength p.lengthNibble :=
    Nat.max_eq_right (Nat.le_of_lt hl)
  rw [decodePrefixStep]
  refine (if_neg fun h => absurd (avail_lt.mp h.2) (Nat.not_lt.mpr hf)).trans ?_
  show Host.Outcome.next
    (s.loopDecode ⟨headerOfPrefix p, 20, regionEndOf (nibbleLength p.lengthNibble), []⟩) = _
  rw [hend, loopDecode_of_lt s hl]

/-- Settles O34: the three outcomes of the prefix inside DECODE. -/
theorem fixedPrefixInsideDecode : Obligations.FixedPrefixInsideDecode := by
  intro s p hp h
  rw [exec_hdr20_decodePrefix hp]
  refine ⟨fun hl hs => ?_, fun hl hf => ?_, fun hl => ?_⟩
  · exact decodePrefixStep_of_tooLong hl (avail_lt.mp hs)
  · exact decodePrefixStep_of_options hl (Nat.not_lt.mp fun hlt => absurd (avail_lt.mpr hlt) (not_lt.mpr hf))
  · exact decodePrefixStep_of_noOptions hl

theorem IsTlv.exec_decodeOptions {i : Instr} {k len : Byte} {value : List Byte}
    (h : IsTlv i k len value) {s : State} {d : DecodeLocal} (hp : s.phase = .decodeOptions d) :
    exec i s = decodeTlvStep k len value d s := by
  rw [h.exec_eq, execTlv, hp]

/-- R89: a record that fits is appended. -/
theorem decodeTlvStep_of_fits {d : DecodeLocal} {len : Byte} (hr : d.pos + 1 < d.regionEnd)
    (h2 : 2 ≤ len.toNat) (hle : d.pos + len.toNat ≤ d.regionEnd) (k : Byte) (value : List Byte)
    (s : State) :
    decodeTlvStep k len value d s = .next (s.appendEntry d ⟨k, value⟩ len.toNat) := by
  rw [decodeTlvStep, if_neg (by omega), checkTlv_ok h2 hle, endWith_ok]

/-- R89 and R133: the three causes of MalformedOption. -/
theorem decodeTlvStep_of_malformed {d : DecodeLocal} {len : Byte}
    (h : d.pos + 1 ≥ d.regionEnd ∨ len.toNat < 2 ∨ d.pos + len.toNat > d.regionEnd) (k : Byte)
    (value : List Byte) (s : State) :
    decodeTlvStep k len value d s = .next (s.raise .malformedOption) := by
  rw [decodeTlvStep]
  split
  next => rfl
  next hr => rw [checkTlv_malformed (h.resolve_left hr), endWith_raise]

/-- Settles O38: the entry is appended, and the loop goes on below the region's end only. -/
theorem tlvInsideDecode : Obligations.TlvInsideDecode := by
  intro s d i k len value h hp hr h2
  rw [h.exec_decodeOptions hp]
  constructor
  · intro hlt
    rw [decodeTlvStep_of_fits hr h2 (Nat.le_of_lt hlt), appendEntry_of_lt _ s hlt]
    rfl
  · intro heq
    rw [decodeTlvStep_of_fits hr h2 (Nat.le_of_eq heq), appendEntry_of_ge _ s (Nat.le_of_eq heq.symm)]
    rfl

/-- Settles O39: each cause ends DECODE by its error entry. -/
theorem tlvMalformedInsideDecode : Obligations.TlvMalformedInsideDecode := by
  intro s d i k len value h hp hbad
  rw [h.exec_decodeOptions hp]
  exact decodeTlvStep_of_malformed hbad k value s

/-! ### Inside ENCODE -/

theorem exec_hdr20_encodePrefix {s : State} {e : EncodeLocal} (h : s.phase = .encodePrefix e)
    (p : FixedPrefix) :
    exec (.hdr20 p) s = endWith (emit (prefixBytes p) e) State.prefixWritten s := by
  show execHdr20 p s = _
  rw [execHdr20, h]

theorem exec_optEol_encodeOptions {s : State} {e : EncodeLocal} (h : s.phase = .encodeOptions e) :
    exec .optEol s = endWith (emit [Config.kindEol] e) State.sentinelWritten s := by
  show execOptEol s = _
  rw [execOptEol, h]

theorem exec_optNop_encodeOptions {s : State} {e : EncodeLocal} (h : s.phase = .encodeOptions e) :
    exec .optNop s = endWith (emit [Config.kindNop] e) State.nextEntry s := by
  show execOptNop s = _
  rw [execOptNop, h]

theorem IsTlv.exec_encodeOptions {i : Instr} {k len : Byte} {value : List Byte}
    (h : IsTlv i k len value) {s : State} {e : EncodeLocal} (hp : s.phase = .encodeOptions e) :
    exec i s = endWith (emit (k :: len :: value) e) State.nextEntry s := by
  rw [h.exec_eq, execTlv, hp]
  rfl

/-- Settles O35: the 20 bytes are written at the cursor, and the pending entries say how ENCODE goes on. -/
theorem fixedPrefixInsideEncode : Obligations.FixedPrefixInsideEncode := by
  intro s p e hp hw hf
  obtain ⟨out, hemit, hlen, -, hread, hframe⟩ := emit_spec (bs := prefixBytes p) hw hf
  rw [exec_hdr20_encodePrefix hp, hemit, endWith_ok]
  exact ⟨out, hlen, hread, hframe, fun hq => congrArg _ (if_pos hq), fun hq => congrArg _ (if_neg hq)⟩

/-- Settles O40: NOP and the TLV rows alike emit their bytes and take up the next entry. -/
theorem entriesInsideEncode : Obligations.EntriesInsideEncode := by
  intro s e i bytes hi hp hw hf
  have hexec : exec i s = endWith (emit bytes e) State.nextEntry s := by
    obtain ⟨rfl, rfl⟩ | ⟨k, len, value, h, rfl⟩ := hi
    · exact exec_optNop_encodeOptions hp
    · exact h.exec_encodeOptions hp
  obtain ⟨out, hemit, hlen, -, hread, hframe⟩ := emit_spec hw hf
  exact ⟨out, by rw [hexec, hemit]; rfl, hlen, hread, hframe⟩

/-- Settles O41: one byte is written at the cursor, and ENCODE ends. -/
theorem sentinelInsideEncode : Obligations.SentinelInsideEncode := by
  intro s e hp hw hf
  obtain ⟨out, hemit, hlen, -, hread, hframe⟩ := emit_spec (bs := [Config.kindEol]) hw hf
  obtain ⟨-, hget⟩ := Memory.readBytes_ok hread
  refine ⟨out, ?_, hlen, hget 0 (by decide), fun a ha => hframe a ?_⟩
  · rw [exec_optEol_encodeOptions hp, hemit]
    rfl
  · show a < e.start + e.pos ∨ e.start + e.pos + 1 ≤ a
    omega

/-! ### Out of place -/

/-- Every instruction of the option format is EOL, NOP or one of the seven TLV rows (R56 to R58). -/
theorem option_instr_cases {i : Instr} (h : i.format = .option) :
    i = .optEol ∨ i = .optNop ∨ ∃ k len value, IsTlv i k len value := by
  cases i with
  | decode | construct | encode | checksum | hdr20 => cases h
  | optEol => exact .inl rfl
  | optNop => exact .inr (.inl rfl)
  | optTlvK02 lo len value => exact .inr (.inr ⟨_, _, _, .k02 lo len value⟩)
  | optTlvK04 lo len value => exact .inr (.inr ⟨_, _, _, .k04 lo len value⟩)
  | optTlvK08 lo len value => exact .inr (.inr ⟨_, _, _, .k08 lo len value⟩)
  | optTlvK10 lo len value => exact .inr (.inr ⟨_, _, _, .k10 lo len value⟩)
  | optTlvK20 lo len value => exact .inr (.inr ⟨_, _, _, .k20 lo len value⟩)
  | optTlvK40 lo len value => exact .inr (.inr ⟨_, _, _, .k40 lo len value⟩)
  | optTlvK80 lo len value => exact .inr (.inr ⟨_, _, _, .k80 lo len value⟩)

theorem exec_option_outOfPlace {i : Instr} (hfmt : i.format = .option) {s : State}
    (hd : ∀ d, s.phase ≠ .decodeOptions d) (he : ∀ e, s.phase ≠ .encodeOptions e) :
    exec i s = .refused .outOfPlace := by
  cases hp : s.phase with
  | decodeOptions d => exact absurd hp (hd d)
  | encodeOptions e => exact absurd hp (he e)
  | idle | decodePrefix | encodePrefix =>
    obtain rfl | rfl | ⟨k, len, value, h⟩ := option_instr_cases hfmt
    · show execOptEol s = _
      rw [execOptEol, hp]
    · show execOptNop s = _
      rw [execOptNop, hp]
    · rw [h.exec_eq, execTlv, hp]

theorem exec_hdr20_outOfPlace (p : FixedPrefix) {s : State} (hd : s.phase ≠ .decodePrefix)
    (he : ∀ e, s.phase ≠ .encodePrefix e) : exec (.hdr20 p) s = .refused .outOfPlace := by
  show execHdr20 p s = _
  cases hp : s.phase with
  | decodePrefix => exact absurd hp hd
  | encodePrefix e => exact absurd hp (he e)
  | idle | decodeOptions | encodeOptions => rw [execHdr20, hp]

/-- Settles O42: each form's meaning has its own phases and refuses the others. -/
theorem recordsOutOfPlaceAreRefused : Obligations.RecordsOutOfPlaceAreRefused := by
  intro s i
  refine ⟨fun hfmt => exec_option_outOfPlace hfmt, fun hfmt hd he => ?_⟩
  cases i with
  | hdr20 p => exact exec_hdr20_outOfPlace p hd he
  | _ => cases hfmt

/-! ### The step that runs a decoded instruction -/

/-- The select laid out as a byte decodes to the operation it names (R62). -/
theorem decode_select (op : BitVec 2) :
    decode .op [BitVec.ofNat 8 op.toNat] = .ok (decodeOp op, []) := by
  revert op
  decide

theorem advance_issue {s : State} {op : BitVec 2} {es : List HostEvent} (hp : s.phase = .idle)
    (hh : s.host = .issue op :: es) :
    advance s = exec (decodeOp op) { s with host := es, op := op } := by
  rw [advance_host hp hh]
  rfl

/-- The instruction that emits an entry of a kind other than 0 (R109, R110). -/
theorem entryInstr_of_ne {o : Entry} (h0 : o.kind ≠ 0) :
    ∃ i, entryInstr o = some i ∧ i.format = .option ∧ encode i = entryBytes o := by
  rw [entryInstr, if_neg h0, entryBytes]
  by_cases h1 : o.kind = Config.kindNop
  · rw [if_pos h1, if_pos h1]
    exact ⟨.optNop, rfl, rfl, rfl⟩
  · rw [if_neg h1, if_neg h1]
    obtain ⟨henc, hfmt, -, -⟩ :=
      (isTlv_tlvOfKind o.kind (tlvLenByte o.value) o.value (kind_ge_of_ne h0 h1)).syntax_facts
    exact ⟨_, rfl, hfmt, henc⟩

/-- Settles O43: each phase fetches from its own place and in its own format. -/
theorem stepRunsTheDecodedInstruction : Obligations.StepRunsTheDecodedInstruction := by
  intro s hr
  rw [step_of_noReset hr]
  refine ⟨fun op es i rest hp hh hd => ?_, fun bs i rest hp hb hd => ?_, fun d bs i rest hp hlt hb hd => ?_,
    fun e hp => ?_, fun e o os hp hq h0 => ?_, fun e hp hq => ?_⟩
  · cases (decode_select op).symm.trans hd
    exact advance_issue hp hh
  · rw [advance, fetch, hp]
    simp only [Config.fixedLen, hb, decoded, hd]
  · rw [advance, fetch, hp]
    simp only [fetchRecord, if_pos hlt, hb, decoded, hd]
  · rw [advance, fetch, hp]
  · obtain ⟨i, hi, hfmt, henc⟩ := entryInstr_of_ne h0
    refine ⟨i, hfmt, henc, ?_⟩
    rw [advance, fetch, hp]
    simp only [emitRecord, hq, hi]
  · rw [advance, fetch, hp]
    simp only [emitRecord, hq]

end Sys2Proof.Machine
end

section
/-! PROOFS. The invariant: every step keeps it, and from it only the collaborator's action can stop; reset
(spec/10_state.md R16 to R18; spec/41_decode.md R93; spec/42_encode.md R113; spec/60_exceptions.md R140;
spec/70_reset_and_hazards.md R150). -/

namespace Sys2Proof.Machine

/-! ### The invariant of each way an operation ends or goes on -/

theorem State.Inv.src_wf {s : State} (h : s.Inv) : s.src.wf = true := by
  obtain ⟨hsrc, -, -, -⟩ := h
  exact hsrc

theorem State.Inv.dst_wf {s : State} (h : s.Inv) : s.dst.wf = true := by
  obtain ⟨-, hdst, -, -⟩ := h
  exact hdst

theorem State.raise_inv {s : State} (hsrc : s.src.wf = true) (hdst : s.dst.wf = true) (k : ErrorKind) :
    (s.raise k).Inv := ⟨hsrc, hdst, ⟨rfl, rfl⟩, trivial⟩

theorem State.endHeader_inv {s : State} (hsrc : s.src.wf = true) (hdst : s.dst.wf = true) {h : Header}
    (hl : ResultLengthOk h) : (s.endHeader h).Inv :=
  ⟨hsrc, hdst, .inl ⟨h, rfl, hl, rfl⟩, trivial⟩

theorem State.endBytes_inv {s : State} (hsrc : s.src.wf = true) (hdst : s.dst.wf = true) {m : Memory}
    (hm : m.wf = true) : (s.endBytes m).Inv := by
  refine ⟨hsrc, ?_, .inr ⟨m, rfl, hm, rfl⟩, trivial⟩
  rw [State.endBytes_dst]
  split
  · exact hm
  · exact hdst

theorem State.setPhase_inv {s : State} (h : s.Inv) {p : Phase} (hp : PhaseInv (s.setPhase p)) :
    (s.setPhase p).Inv := by
  obtain ⟨hsrc, hdst, hout, -⟩ := h
  exact ⟨hsrc, hdst, hout, hp⟩

theorem phaseInv_of_idle {s : State} (hp : s.phase = .idle) : PhaseInv s := by
  rw [PhaseInv, hp]
  trivial

theorem OutputsInv.resultBytes_wf {s : State} (h : OutputsInv s) {m : Memory}
    (hr : s.resultBytes = some m) : m.wf = true := by
  rw [OutputsInv] at h
  split at h
  · obtain ⟨hd, -, -, hnone⟩ | ⟨m', hm', hwf, -⟩ := h
    · cases hnone.symm.trans hr
    · cases hm'.symm.trans hr
      exact hwf
  · cases h.2.symm.trans hr
  · cases h.2.symm.trans hr

/-! ### The operations of an idle block -/

/-- Every operation completes, in a state that meets the invariant whatever the operands are. -/
theorem exec_operation_inv {i : Instr} (hi : IsOperation i) {s : State} (hsrc : s.src.wf = true)
    (hdst : s.dst.wf = true) : ∃ t, exec i s = .next t ∧ t.Inv := by
  obtain rfl | rfl | rfl | rfl := hi
  · obtain ⟨h, hd⟩ | hd | hd := decodeHeader_outcome s.src s.offset
    · exact ⟨_, exec_decode_of_ok hd, State.endHeader_inv hsrc hdst (decodeHeader_shape hd).1⟩
    · exact ⟨_, exec_decode_of_raise hd, State.raise_inv hsrc hdst _⟩
    · exact ⟨_, exec_decode_of_raise hd, State.raise_inv hsrc hdst _⟩
  · rw [exec_construct]
    by_cases hv : Valid s.fields
    · obtain ⟨-, h4, h60, -⟩ := lengths_of_valid hv
      rw [constructHeader_of_valid hv]
      exact ⟨_, rfl, State.endHeader_inv hsrc hdst ⟨h4, h60⟩⟩
    · rw [constructHeader_of_invalid hv]
      exact ⟨_, rfl, State.raise_inv hsrc hdst _⟩
  · obtain ⟨-, -, out, hout, hexec⟩ | hexec | hexec := exec_encode_cases s
    · exact ⟨_, hexec, State.endBytes_inv hsrc hdst
        (Memory.writeBytes_wf (destination_wf s.header s.bufPresent s.offset hdst) hout)⟩
    · exact ⟨_, hexec, State.raise_inv hsrc hdst _⟩
    · exact ⟨_, hexec, State.raise_inv hsrc hdst _⟩
  · exact ⟨_, exec_checksum s, State.raise_inv hsrc hdst _⟩

theorem decodeOp_isOperation (op : BitVec 2) : IsOperation (decodeOp op) := by
  revert op
  decide

/-! ### The start of an operation that runs record by record -/

theorem startDecode_of_short {s : State} (h : s.src.len < s.offset + 20) :
    startDecode s = .next (s.raise .bufferTooShort) := if_pos (avail_lt.mpr h)

theorem startDecode_of_fits {s : State} (h : s.offset + 20 ≤ s.src.len) :
    startDecode s = .next (s.setPhase .decodePrefix) :=
  if_neg fun hlt => absurd (avail_lt.mp hlt) (Nat.not_lt.mpr h)

/-- The destination of a valid Header that fits, as the local state of an ENCODE. -/
theorem destination_inv {s : State} (hdst : s.dst.wf = true) (hv : Valid s.header)
    (hf : s.bufPresent = true → s.offset + s.header.headerLength ≤ s.dst.len) (pos : Nat)
    (pending : List Entry) :
    EncodeLocal.Inv s ⟨(destination s.header s.bufPresent s.dst s.offset).1,
      (destination s.header s.bufPresent s.dst s.offset).2, pos, pending⟩ := by
  refine ⟨hv, destination_wf s.header s.bufPresent s.offset hdst, destination_fits hf, fun hb => ?_⟩
  rw [destination, if_pos hb]
  exact ⟨rfl, rfl⟩

theorem startDecode_inv {s : State} (h : s.Inv) : ∃ t, startDecode s = .next t ∧ t.Inv := by
  have hsrc := h.src_wf
  have hdst := h.dst_wf
  by_cases hs : s.src.len < s.offset + 20
  · exact ⟨_, startDecode_of_short hs, State.raise_inv hsrc hdst _⟩
  · exact ⟨_, startDecode_of_fits (Nat.not_lt.mp hs), State.setPhase_inv h (Nat.not_lt.mp hs)⟩

theorem startEncode_inv {s : State} (h : s.Inv) : ∃ t, startEncode s = .next t ∧ t.Inv := by
  have hsrc := h.src_wf
  have hdst := h.dst_wf
  rw [startEncode]
  obtain ⟨hv, hf⟩ | hr | hr := encodeStart_cases s.header s.bufPresent s.dst s.offset
  · rw [encodeStart_ok hv hf]
    exact ⟨_, rfl, State.setPhase_inv h ⟨destination_inv hdst hv hf _ _, rfl, rfl⟩⟩
  · rw [hr]
    exact ⟨_, rfl, State.raise_inv hsrc hdst _⟩
  · rw [hr]
    exact ⟨_, rfl, State.raise_inv hsrc hdst _⟩

/-! ### The host's actions -/

/-- A hand-over completes, with the valid result or with a free value in its place. -/
theorem withResult_inv {α : Type} {r : Option α} {invalid : Nat → α} {use : α → State → State} {s : State}
    (hvalid : ∀ x, r = some x → (use x s).Inv)
    (hfree : (use (invalid s.freeIndex) { s with freeIndex := s.freeIndex + 1 }).Inv) :
    ∃ t, withResult r invalid use s = .next t ∧ t.Inv := by
  cases r with
  | none => exact ⟨_, rfl, hfree⟩
  | some x => exact ⟨_, rfl, hvalid x rfl⟩

/-- Every action of the host but the collaborator's completes and keeps the invariant. -/
theorem advance_host_inv {s : State} {e : HostEvent} {es : List HostEvent} (h : s.Inv)
    (hp : s.phase = .idle) (hh : s.host = e :: es) (hc : ∀ b16 b17, e ≠ .collaborator b16 b17) :
    ∃ t, advance s = .next t ∧ t.Inv := by
  have hidle : ∀ {u : State}, u.phase = s.phase → PhaseInv u := fun hu => phaseInv_of_idle (hu.trans hp)
  obtain ⟨hsrc, hdst, hout, -⟩ := h
  rw [advance_host hp hh]
  cases e with
  | setSrc bytes => exact ⟨_, rfl, Memory.ofBytes_wf bytes, hdst, hout, hidle rfl⟩
  | setDst bytes => exact ⟨_, rfl, hsrc, Memory.ofBytes_wf bytes, hout, hidle rfl⟩
  | setOffset | setFields | setHeader | setBufPresent | setIpctx | reset =>
    exact ⟨_, rfl, hsrc, hdst, hout, hidle rfl⟩
  | srcFromDst => exact ⟨_, rfl, hdst, hdst, hout, hidle rfl⟩
  | srcFromResult =>
    exact withResult_inv (fun m hm => ⟨hout.resultBytes_wf hm, hdst, hout, hidle rfl⟩)
      ⟨invalidBuffer_wf _, hdst, hout, hidle rfl⟩
  | dstFromResult =>
    exact withResult_inv (fun m hm => ⟨hsrc, hout.resultBytes_wf hm, hout, hidle rfl⟩)
      ⟨hsrc, invalidBuffer_wf _, hout, hidle rfl⟩
  | headerFromResult =>
    exact withResult_inv (fun _ _ => ⟨hsrc, hdst, hout, hidle rfl⟩) ⟨hsrc, hdst, hout, hidle rfl⟩
  | collaborator b16 b17 => exact absurd rfl (hc b16 b17)
  | issue op => exact exec_operation_inv (decodeOp_isOperation op) hsrc hdst
  | walk op =>
    have hinv : State.Inv { s with host := es, op := op } := ⟨hsrc, hdst, hout, hidle rfl⟩
    by_cases hd : decodeOp op = .decode
    · simp only [hostAction, startWalk, if_pos hd]
      exact startDecode_inv hinv
    by_cases he : decodeOp op = .encode
    · simp only [hostAction, startWalk, if_neg hd, if_pos he]
      exact startEncode_inv hinv
    · simp only [hostAction, startWalk, if_neg hd, if_neg he]
      exact exec_operation_inv (decodeOp_isOperation op) hsrc hdst

/-- The collaborator's action keeps the invariant where it completes. -/
theorem collaborate_inv {s t : State} {b16 b17 : Byte} (h : s.Inv) (hp : s.phase = .idle)
    (ht : collaborate b16 b17 s = .next t) : t.Inv := by
  obtain ⟨hsrc, hdst, hout, -⟩ := h
  obtain ⟨m, hm, rfl⟩ | ⟨k, -, rfl⟩ := endWith_next ht
  · exact ⟨hsrc, Memory.writeBytes_wf hdst hm, hout, phaseInv_of_idle hp⟩
  · exact State.raise_inv hsrc hdst k

/-! ### DECODE under way -/

theorem State.Inv.decodePrefix {s : State} (h : s.Inv) (hp : s.phase = .decodePrefix) :
    s.offset + 20 ≤ s.src.len := by
  obtain ⟨-, -, -, hphase⟩ := h
  rwa [PhaseInv, hp] at hphase

theorem State.Inv.decodeOptions {s : State} {d : DecodeLocal} (h : s.Inv)
    (hp : s.phase = .decodeOptions d) : d.Inv s := by
  obtain ⟨-, -, -, hphase⟩ := h
  rwa [PhaseInv, hp] at hphase

theorem advance_decodePrefix_inv {s : State} (h : s.Inv) (hp : s.phase = .decodePrefix) :
    ∃ t, advance s = .next t ∧ t.Inv := by
  obtain ⟨p, -, hadv⟩ := advance_decodePrefix hp (h.decodePrefix hp)
  have hsrc := h.src_wf
  have hdst := h.dst_wf
  obtain ⟨h4, h60⟩ := nibbleLength_bounds p.lengthNibble
  by_cases hle : nibbleLength p.lengthNibble ≤ 20
  · exact ⟨_, hadv.trans (decodePrefixStep_of_noOptions hle), State.endHeader_inv hsrc hdst ⟨h4, h60⟩⟩
  have hlt := Nat.not_le.mp hle
  by_cases hs : s.src.len < s.offset + nibbleLength p.lengthNibble
  · exact ⟨_, hadv.trans (decodePrefixStep_of_tooLong hlt hs), State.raise_inv hsrc hdst _⟩
  · refine ⟨_, hadv.trans (decodePrefixStep_of_options hlt (Nat.not_lt.mp hs)), State.setPhase_inv h ?_⟩
    exact ⟨Nat.le_refl 20, hlt, h60, rfl, h4, Nat.not_lt.mp hs, rfl,
      fun _ ho => absurd ho List.not_mem_nil⟩

/-- The local state after an appended entry that leaves bytes in the region. -/
theorem DecodeLocal.Inv.append {s : State} {d : DecodeLocal} (h : d.Inv s) {o : Entry}
    (ho : DecodableEntry o) (hlt : d.pos + optWireLen o < d.regionEnd) :
    DecodeLocal.Inv s { d with pos := d.pos + optWireLen o, opts := d.opts ++ [o] } := by
  obtain ⟨h20, -, h60, hend, h4, hfit, hlen, hdec⟩ := h
  refine ⟨Nat.le_add_right_of_le h20, hlt, h60, hend, h4, hfit, ?_, decodable_append hdec ho⟩
  rw [entriesWireLen_append, ← Nat.add_assoc, hlen]
  rfl

theorem advance_decodeOptions_inv {s : State} {d : DecodeLocal} (h : s.Inv)
    (hp : s.phase = .decodeOptions d) : ∃ t, advance s = .next t ∧ t.Inv := by
  have hsrc := h.src_wf
  have hdst := h.dst_wf
  obtain ⟨-, hlt, h60, hend, h4, hfit, -, -⟩ := h.decodeOptions hp
  have hresult : ∀ os, ResultLengthOk { d.header with options := os } := fun _ => ⟨h4, hend ▸ h60⟩
  obtain ⟨-, hadv⟩ | ⟨-, hadv⟩ | ⟨o, -, ho, -, hadv⟩ := advance_decodeOptions hp hlt hfit
  · exact ⟨_, hadv, State.endHeader_inv hsrc hdst (hresult _)⟩
  · exact ⟨_, hadv, State.raise_inv hsrc hdst _⟩
  · refine ⟨_, hadv, ?_⟩
    by_cases hmore : d.pos + optWireLen o < d.regionEnd
    · rw [appendEntry_of_lt o s hmore]
      exact State.setPhase_inv h ((h.decodeOptions hp).append ho hmore)
    · rw [appendEntry_of_ge o s (Nat.not_lt.mp hmore)]
      exact State.endHeader_inv hsrc hdst (hresult _)

/-! ### ENCODE under way -/

theorem State.Inv.encodePrefix {s : State} {e : EncodeLocal} (h : s.Inv)
    (hp : s.phase = .encodePrefix e) : e.Inv s ∧ e.pos = 0 ∧ e.pending = s.header.options := by
  obtain ⟨-, -, -, hphase⟩ := h
  rwa [PhaseInv, hp] at hphase

theorem State.Inv.encodeOptions {s : State} {e : EncodeLocal} (h : s.Inv)
    (hp : s.phase = .encodeOptions e) : e.Inv s ∧ s.header.options ≠ [] ∧
      e.pos + entriesWireLen e.pending + 1 = s.header.headerLength := by
  obtain ⟨-, -, -, hphase⟩ := h
  rwa [PhaseInv, hp] at hphase

theorem EncodeLocal.Inv.valid {s : State} {e : EncodeLocal} (h : e.Inv s) : Valid s.header := by
  obtain ⟨hv, -, -, -⟩ := h
  exact hv

/-- A record that fits in the target range is emitted, and the local state keeps its invariant. -/
theorem EncodeLocal.Inv.emit {s : State} {e : EncodeLocal} (h : e.Inv s) {bytes : List Byte}
    (hfit : e.pos + bytes.length ≤ s.header.headerLength) :
    ∃ out, Machine.emit bytes e = .ok ⟨out, e.start, e.pos + bytes.length, e.pending⟩ ∧ out.wf = true ∧
      ∀ pos pending, EncodeLocal.Inv s ⟨out, e.start, pos, pending⟩ := by
  obtain ⟨hv, hwf, hrange, hbuf⟩ := h
  obtain ⟨out, hemit, hlen, hwf', -⟩ := emit_spec (bs := bytes) hwf (by omega)
  refine ⟨out, hemit, hwf', fun pos pending => ⟨hv, hwf', ?_, fun hb => ?_⟩⟩
  · rw [hlen]
    exact hrange
  · obtain ⟨hstart, hdst⟩ := hbuf hb
    exact ⟨hstart, hlen.trans hdst⟩

theorem advance_encodePrefix_inv {s : State} {e : EncodeLocal} (h : s.Inv)
    (hp : s.phase = .encodePrefix e) : ∃ t, advance s = .next t ∧ t.Inv := by
  obtain ⟨he, hpos, hq⟩ := h.encodePrefix hp
  have hsrc := h.src_wf
  have hdst := h.dst_wf
  obtain ⟨h20, -, -, hopts⟩ := lengths_of_valid he.valid
  obtain ⟨out, hemit, hwf, hkeep⟩ := he.emit (bytes := prefixBytes (prefixOfHeader s.header))
    (by rw [hpos, prefixBytes_length]; omega)
  refine ⟨_, by rw [advance_encodePrefix hp, hemit, endWith_ok], ?_⟩
  rw [State.prefixWritten]
  split
  next => exact State.endBytes_inv hsrc hdst hwf
  next hne =>
    rw [hq] at hne
    refine State.setPhase_inv h ⟨hkeep _ _, hne, ?_⟩
    show e.pos + 20 + entriesWireLen e.pending + 1 = s.header.headerLength
    rw [optionsWireLen, if_neg hne] at hopts
    rw [hq, hpos]
    omega

theorem advance_encodeOptions_inv {s : State} {e : EncodeLocal} (h : s.Inv)
    (hp : s.phase = .encodeOptions e) : ∃ t, advance s = .next t ∧ t.Inv := by
  obtain ⟨he, hne, hlen⟩ := h.encodeOptions hp
  have hsrc := h.src_wf
  have hdst := h.dst_wf
  cases hq : e.pending with
  | nil =>
    obtain ⟨out, hemit, hwf, -⟩ := he.emit (bytes := [Config.kindEol])
      (by rw [List.length_singleton]; omega)
    exact ⟨s.endBytes out, by rw [advance_encodeSentinel hp hq, hemit]; rfl,
      State.endBytes_inv hsrc hdst hwf⟩
  | cons o os =>
    rw [hq, entriesWireLen] at hlen
    obtain ⟨out, hemit, -, hkeep⟩ := he.emit (bytes := entryBytes o)
      (by rw [entryBytes_length]; omega)
    refine ⟨s.setPhase (.encodeOptions ⟨out, e.start, e.pos + (entryBytes o).length, e.pending.tail⟩),
      by rw [advance_encodeEntry hp hq, hemit]; rfl, State.setPhase_inv h ⟨hkeep _ _, hne, ?_⟩⟩
    show e.pos + (entryBytes o).length + entriesWireLen e.pending.tail + 1 = s.header.headerLength
    rw [hq, entryBytes_length, List.tail_cons]
    omega

/-! ### Reset -/

/-- Each byte of a mixture is the old one or the new one. -/
theorem mixBytes_getElem {takeNew : Nat → Bool} {n k : Nat} {olds news : List Byte} {b : Byte}
    (h : (mixBytes takeNew n olds news)[k]? = some b) : olds[k]? = some b ∨ news[k]? = some b := by
  induction olds generalizing n k news with
  | nil => cases h
  | cons old olds ih =>
    match news, k with
    | [], _ => cases h
    | new :: news, 0 =>
      cases h
      split
      · exact .inr rfl
      · exact .inl rfl
    | new :: news, k + 1 => exact ih h

theorem mixBytes_length {takeNew : Nat → Bool} {n : Nat} {olds news : List Byte}
    (h : olds.length = news.length) : (mixBytes takeNew n olds news).length = olds.length := by
  induction olds generalizing n news with
  | nil => rfl
  | cons old olds ih =>
    match news, h with
    | new :: news, h => exact congrArg (· + 1) (ih (Nat.succ.inj h))

/-- What an ENCODE into the caller's buffer leaves there when reset abandons it (R150): old or new bytes in the
target range, old ones outside. -/
theorem abandonedDst_spec {s : State} (hw : s.dst.wf = true) (hv : Valid s.header)
    (hf : s.offset + s.header.headerLength ≤ s.dst.len) :
    ∃ m, abandonedDst s = .ok m ∧ m.wf = true ∧ m.len = s.dst.len ∧
      (∀ a, a < s.offset ∨ s.offset + s.header.headerLength ≤ a → m.get a = s.dst.get a) ∧
      ∀ (k : Nat) (b : Byte), (headerWire s.header)[k]? = some b →
        m.get (s.offset + k) = s.dst.get (s.offset + k) ∨ m.get (s.offset + k) = .ok b := by
  have hlen := headerWire_length_of_valid hv
  obtain ⟨new, hnew⟩ := Memory.writeBytes_fits (m := s.dst) (a := s.offset) (bs := headerWire s.header)
    (by omega)
  obtain ⟨olds, holds⟩ := Memory.readBytes_fits hf
  obtain ⟨holdsLen, hold⟩ := Memory.readBytes_ok holds
  have hnews : new.readBytes s.offset s.header.headerLength = .ok (headerWire s.header) := by
    rw [← hlen]
    exact Memory.readBytes_eq fun k hk => Memory.get_writeBytes_same hw hnew hk
  have hmixLen : (mixBytes (Config.resetMix s.freeIndex) 0 olds (headerWire s.header)).length =
      s.header.headerLength := (mixBytes_length (holdsLen.trans hlen.symm)).trans holdsLen
  obtain ⟨m, hm⟩ := Memory.writeBytes_fits (m := s.dst) (a := s.offset)
    (bs := mixBytes (Config.resetMix s.freeIndex) 0 olds (headerWire s.header)) (by omega)
  have henc : encodeHeader s.header true s.dst s.offset = .ok new :=
    (encodeHeader_eq (encodeStart_ok hv fun _ => hf)).trans hnew
  refine ⟨m, ?_, Memory.writeBytes_wf hw hm, Memory.writeBytes_len hm, fun a ha => ?_, fun k b hb => ?_⟩
  · rw [abandonedDst, henc, op_bind_ok, holds, op_bind_ok, hnews, op_bind_ok, hm]
  · exact Memory.get_writeBytes_other hm (by rwa [hmixLen])
  · obtain ⟨hk, -⟩ := List.getElem?_eq_some_iff.mp hb
    have hkmix : k < (mixBytes (Config.resetMix s.freeIndex) 0 olds (headerWire s.header)).length := by
      omega
    rw [Memory.get_writeBytes_same hw hm hkmix]
    obtain ho | hn := mixBytes_getElem (List.getElem?_eq_getElem hkmix)
    · obtain ⟨hko, ho⟩ := List.getElem?_eq_some_iff.mp ho
      exact .inl (by rw [hold k hko, ho])
    · exact .inr (congrArg _ (Option.some.inj (hn.symm.trans hb)))

/-- An ENCODE into the caller's buffer that is under way has passed its checks. -/
theorem State.Inv.writingDst {s : State} (h : s.Inv) (hw : Machine.writingDst s = true) :
    s.bufPresent = true ∧ ((∃ e, s.phase = .encodePrefix e) ∨ ∃ e, s.phase = .encodeOptions e) ∧
      Valid s.header ∧ s.offset + s.header.headerLength ≤ s.dst.len := by
  have hlocal : ∀ {e : EncodeLocal}, e.Inv s → s.bufPresent = true →
      Valid s.header ∧ s.offset + s.header.headerLength ≤ s.dst.len := fun he hb => by
    obtain ⟨hv, -, hrange, hbuf⟩ := he
    obtain ⟨hstart, hlen⟩ := hbuf hb
    exact ⟨hv, by rwa [hstart, hlen] at hrange⟩
  rw [Machine.writingDst] at hw
  split at hw
  next => cases hw
  next => cases hw
  next => cases hw
  next e hp => exact ⟨hw, .inl ⟨e, hp⟩, hlocal (h.encodePrefix hp).1 hw⟩
  next e hp => exact ⟨hw, .inr ⟨e, hp⟩, hlocal (h.encodeOptions hp).1 hw⟩

/-- Everything a reset can do to a state that meets the invariant (R150). -/
theorem applyReset_cases {s : State} (h : s.Inv) :
    applyReset s = s.clear ∨
    (s.bufPresent = true ∧ ((∃ e, s.phase = .encodePrefix e) ∨ ∃ e, s.phase = .encodeOptions e) ∧
      ∃ m, applyReset s = { s.clear with dst := m, freeIndex := s.freeIndex + 1 } ∧ m.wf = true ∧
        m.len = s.dst.len ∧
        (∀ a, a < s.offset ∨ s.offset + s.header.headerLength ≤ a → m.get a = s.dst.get a) ∧
        ∀ (k : Nat) (b : Byte), (headerWire s.header)[k]? = some b →
          m.get (s.offset + k) = s.dst.get (s.offset + k) ∨ m.get (s.offset + k) = .ok b) := by
  rw [applyReset]
  by_cases hw : writingDst s = true
  · obtain ⟨hb, hphase, hv, hf⟩ := h.writingDst hw
    obtain ⟨m, hm, hspec⟩ := abandonedDst_spec h.dst_wf hv hf
    exact .inr ⟨hb, hphase, m, by rw [if_pos hw, hm], hspec⟩
  · exact .inl (if_neg hw)

theorem applyReset_inv {s : State} (h : s.Inv) : (applyReset s).Inv := by
  obtain hr | ⟨-, -, m, hr, hm, -⟩ := applyReset_cases h
  · rw [hr]
    exact ⟨h.src_wf, h.dst_wf, ⟨rfl, rfl⟩, trivial⟩
  · rw [hr]
    exact ⟨h.src_wf, hm, ⟨rfl, rfl⟩, trivial⟩

/-- Settles O50: reset clears the block, and touches DST only where it abandons an ENCODE into it. -/
theorem resetAbandonsTheOperation : Obligations.ResetAbandonsTheOperation := by
  intro s h hr
  refine ⟨applyReset s, by rw [step, hr], ?_⟩
  obtain hx | ⟨hb, hphase, m, hx, -, hlen, hout, hin⟩ := applyReset_cases h
  · rw [hx]
    exact ⟨rfl, rfl, rfl, rfl, rfl, rfl, rfl, rfl, rfl, rfl, rfl, rfl, rfl, rfl, fun _ => rfl,
      fun _ _ => rfl, fun _ _ _ => .inl rfl⟩
  · rw [hx]
    refine ⟨rfl, rfl, rfl, rfl, rfl, rfl, rfl, rfl, rfl, rfl, rfl, rfl, rfl, hlen, fun hnot => ?_, hout, hin⟩
    obtain hb' | ⟨hpre, hopt⟩ := hnot
    · cases hb.symm.trans hb'
    · obtain ⟨e, hp⟩ | ⟨e, hp⟩ := hphase
      · exact absurd hp (hpre e)
      · exact absurd hp (hopt e)

/-! ### The step -/

/-- From the invariant the machine goes on and keeps it, but where the collaborator's action comes next. -/
theorem advance_progress {s : State} (h : s.Inv)
    (hc : s.phase = .idle → ∀ b16 b17 es, s.host ≠ .collaborator b16 b17 :: es) :
    ∃ t, advance s = .next t ∧ t.Inv := by
  cases hp : s.phase with
  | idle =>
    cases hh : s.host with
    | nil => exact ⟨s, by rw [advance, fetch, hp]; simp only [hh], h⟩
    | cons e es => exact advance_host_inv h hp hh fun b16 b17 he => hc hp b16 b17 es (he ▸ hh)
  | decodePrefix => exact advance_decodePrefix_inv h hp
  | decodeOptions d => exact advance_decodeOptions_inv h hp
  | encodePrefix e => exact advance_encodePrefix_inv h hp
  | encodeOptions e => exact advance_encodeOptions_inv h hp

theorem advance_collaborator {s : State} {b16 b17 : Byte} {es : List HostEvent} (hp : s.phase = .idle)
    (hh : s.host = .collaborator b16 b17 :: es) :
    advance s = collaborate b16 b17 { s with host := es } := by
  rw [advance_host hp hh]
  rfl

theorem advance_keeps_inv {s t : State} (h : s.Inv) (ht : advance s = .next t) : t.Inv := by
  by_cases hc : s.phase = .idle ∧ ∃ b16 b17 es, s.host = .collaborator b16 b17 :: es
  · obtain ⟨hp, b16, b17, es, hh⟩ := hc
    rw [advance_collaborator hp hh] at ht
    exact collaborate_inv (s := { s with host := es }) h hp ht
  · obtain ⟨t', ht', hinv⟩ := advance_progress h fun hp b16 b17 es hh => hc ⟨hp, b16, b17, es, hh⟩
    cases ht'.symm.trans ht
    exact hinv

/-- A step is a reset whose time has come, or what the machine does next, with the time to a reset counted
down. -/
theorem step_cases (s : State) : step s = .next (applyReset s) ∨
    ∃ r, step s = advance { s with resetIn := r } := by
  rw [step]
  split
  next hr => exact .inr ⟨none, by rw [← hr]⟩
  next => exact .inl rfl
  next n _ => exact .inr ⟨some n, rfl⟩

/-- From the invariant a step completes, but where the collaborator's action comes next. -/
theorem step_progress {s : State} (h : s.Inv)
    (hc : s.phase = .idle → ∀ b16 b17 es, s.host ≠ .collaborator b16 b17 :: es) :
    ∃ t, step s = .next t := by
  obtain hs | ⟨r, hs⟩ := step_cases s
  · exact ⟨_, hs⟩
  · obtain ⟨t, ht, -⟩ := advance_progress (s := { s with resetIn := r }) h hc
    exact ⟨t, hs.trans ht⟩

/-- Settles O44: every output is invalid and the block is idle after reset, with empty buffers. -/
theorem resetMeetsTheInvariant : Obligations.ResetMeetsTheInvariant :=
  ⟨⟨State.reset_buffers_wf.1, State.reset_buffers_wf.2, ⟨rfl, rfl⟩, trivial⟩, rfl, rfl, rfl, rfl⟩

/-- Settles O45: reset keeps the invariant, and so does each action of the host and each part of an operation
under way. -/
theorem stepKeepsTheInvariant : Obligations.StepKeepsTheInvariant := by
  intro s t h ht
  obtain hs | ⟨r, hs⟩ := step_cases s
  · cases hs.symm.trans ht
    exact applyReset_inv h
  · exact advance_keeps_inv (s := { s with resetIn := r }) h (hs.symm.trans ht)

/-- Settles O46: with an operation under way no action of the host comes next. -/
theorem operationUnderWayNeverStops : Obligations.OperationUnderWayNeverStops :=
  fun _ h hp => step_progress h fun hidle => absurd hidle hp

/-- Settles O53: the collaborator's action is the one case left. -/
theorem onlyTheCollaboratorCanStop : Obligations.OnlyTheCollaboratorCanStop :=
  fun _ h hc => step_progress h fun _ => hc

/-- Settles O47: of the outcomes of a turn only an appended entry that leaves bytes in the region stays in the
loop. -/
theorem cursorAdvancesByTheRecord : Obligations.CursorAdvancesByTheRecord := by
  intro s t d d' h hr hp ht hp'
  obtain ⟨-, hlt, -, -, -, hfit, -, -⟩ := h.decodeOptions hp
  rw [step_of_noReset hr] at ht
  obtain ⟨-, hadv⟩ | ⟨-, hadv⟩ | ⟨o, -, -, -, hadv⟩ := advance_decodeOptions hp hlt hfit
  · cases hadv.symm.trans ht
    cases hp'
  · cases hadv.symm.trans ht
    cases hp'
  · cases hadv.symm.trans ht
    by_cases hmore : d.pos + optWireLen o < d.regionEnd
    · rw [appendEntry_of_lt o s hmore] at hp'
      cases hp'
      exact ⟨Nat.lt_add_of_pos_right (optWireLen_pos o), rfl, rfl, o, rfl, rfl⟩
    · rw [appendEntry_of_ge o s (Nat.not_lt.mp hmore)] at hp'
      cases hp'

end Sys2Proof.Machine
end

section
/-! PROOFS. A DECODE or an ENCODE run record by record ends where the one-transaction operation ends
(spec/41_decode.md R86 to R92; spec/42_encode.md R108 to R112). -/

namespace Sys2Proof.Machine

/-! ### Runs and ends -/

theorem run_one {s t : State} (h : step s = .next t) : Sys2Proof.core.run 1 s = .next t := run_next h

/-- An operation ends the same way whatever part of it was under way, when its good end overwrites the phase: a
raise does so by itself. -/
theorem endWith_setPhase {α : Type} {fin : α → State → State} {s : State} {p : Phase} (r : Op α)
    (hfin : ∀ x, fin x (s.setPhase p) = fin x s) : endWith r fin (s.setPhase p) = endWith r fin s := by
  cases r with
  | ok x => rw [endWith_ok, endWith_ok, hfin]
  | error e => cases e <;> rfl

theorem endWith_bind_ok {α β : Type} (r : Op α) (f : α → β) (fin : β → State → State) (s : State) :
    endWith (r >>= fun x => .ok (f x)) fin s = endWith r (fun x => fin (f x)) s := by
  cases r <;> rfl

theorem exec_decode_setPhase (s : State) (p : Phase) :
    exec .decode (s.setPhase p) = exec .decode s := endWith_setPhase _ fun _ => rfl

/-! ### DECODE -/

/-- With the cursor at the end of the region the loop has its list (R90). -/
theorem decodeLoop_of_ge {src : Memory} {offset regionEnd pos : Nat} (h : regionEnd ≤ pos) (turns : Nat)
    (opts : List Entry) : decodeLoop src offset regionEnd turns pos opts = .ok opts := by
  cases turns with
  | zero => rfl
  | succ turns => rw [decodeLoop, if_neg (Nat.not_lt.mpr h)]

theorem decodeLoop_stop {src : Memory} {offset regionEnd pos : Nat} (hlt : pos < regionEnd)
    (h : readRecord src offset pos regionEnd = .ok .stop) (turns : Nat) (opts : List Entry) :
    decodeLoop src offset regionEnd (turns + 1) pos opts = .ok opts := by
  rw [decodeLoop, if_pos hlt, h]
  rfl

theorem decodeLoop_raise {src : Memory} {offset regionEnd pos : Nat} {k : ErrorKind}
    (hlt : pos < regionEnd) (h : readRecord src offset pos regionEnd = raising k) (turns : Nat)
    (opts : List Entry) : decodeLoop src offset regionEnd (turns + 1) pos opts = raising k := by
  rw [decodeLoop, if_pos hlt, h]
  rfl

theorem decodeLoop_append {src : Memory} {offset regionEnd pos size : Nat} {o : Entry}
    (hlt : pos < regionEnd) (h : readRecord src offset pos regionEnd = .ok (.append o size)) (turns : Nat)
    (opts : List Entry) : decodeLoop src offset regionEnd (turns + 1) pos opts =
      decodeLoop src offset regionEnd turns (pos + size) (opts ++ [o]) := by
  rw [decodeLoop, if_pos hlt, h]
  rfl

/-- One step for each turn: the machine's run of the option loop ends as the loop of the one-transaction DECODE
does. -/
theorem run_decodeOptions {turns : Nat} {s : State} {d : DecodeLocal} (hr : s.resetIn = none)
    (hp : s.phase = .decodeOptions d) (hlt : d.pos < d.regionEnd)
    (hf : s.offset + d.regionEnd ≤ s.src.len) (ht : d.regionEnd - d.pos ≤ turns) :
    ∃ n, n ≤ turns ∧ Sys2Proof.core.run n s =
      endWith (decodeLoop s.src s.offset d.regionEnd turns d.pos d.opts)
        (fun os => State.endHeader { d.header with options := os }) s := by
  induction turns generalizing s d with
  | zero => omega
  | succ turns ih =>
    obtain ⟨hrec, hadv⟩ | ⟨hrec, hadv⟩ | ⟨o, hrec, -, -, hadv⟩ := advance_decodeOptions hp hlt hf
    · refine ⟨1, by omega, ?_⟩
      rw [run_one ((step_of_noReset hr).trans hadv), decodeLoop_stop hlt hrec, endWith_ok]
      rfl
    · refine ⟨1, by omega, ?_⟩
      rw [run_one ((step_of_noReset hr).trans hadv), decodeLoop_raise hlt hrec, endWith_raise]
      rfl
    rw [decodeLoop_append hlt hrec]
    by_cases hmore : d.pos + optWireLen o < d.regionEnd
    · rw [appendEntry_of_lt o s hmore] at hadv
      have hpos := optWireLen_pos o
      obtain ⟨n, hn, hrun⟩ := ih (s := s.setPhase (.decodeOptions
        { d with pos := d.pos + optWireLen o, opts := d.opts ++ [o] })) hr rfl hmore hf
        (show d.regionEnd - (d.pos + optWireLen o) ≤ turns by omega)
      refine ⟨n + 1, by omega, ?_⟩
      rw [run_next ((step_of_noReset hr).trans hadv), hrun]
      exact endWith_setPhase _ fun _ => rfl
    · have hge := Nat.not_lt.mp hmore
      rw [appendEntry_of_ge o s hge] at hadv
      refine ⟨1, by omega, ?_⟩
      rw [run_one ((step_of_noReset hr).trans hadv), decodeLoop_of_ge hge, endWith_ok]
      rfl

/-- DECODE of a header with an options region that lies in SRC runs the option loop over it. -/
theorem decodeRest_of_options {src : Memory} {offset : Nat} {p : FixedPrefix}
    (hl : 20 < nibbleLength p.lengthNibble) (hf : offset + nibbleLength p.lengthNibble ≤ src.len) :
    decodeRest src offset p =
      (decodeLoop src offset (nibbleLength p.lengthNibble) (nibbleLength p.lengthNibble - 20) 20 [] >>=
        fun opts => .ok { headerOfPrefix p with options := opts }) := by
  rw [decodeRest, if_neg fun h => absurd (avail_lt.mp h.2) (Nat.not_lt.mpr hf), regionEndOf,
    Nat.max_eq_right (Nat.le_of_lt hl)]

/-- From the fixed prefix on a DECODE takes at most 41 steps: the prefix, and at most 40 turns (R93). -/
theorem run_decodePrefix {s : State} (hr : s.resetIn = none) (hp : s.phase = .decodePrefix)
    (hf : s.offset + 20 ≤ s.src.len) :
    ∃ n, n ≤ 41 ∧ Sys2Proof.core.run n s = exec .decode s := by
  obtain ⟨p, hd, hadv⟩ := advance_decodePrefix hp hf
  rw [exec_decode, hd]
  have hstep := (step_of_noReset hr).trans hadv
  by_cases hle : nibbleLength p.lengthNibble ≤ 20
  · refine ⟨1, by omega, ?_⟩
    rw [run_one (hstep.trans (decodePrefixStep_of_noOptions hle)), decodeRest_of_noOptions hle, endWith_ok]
    rfl
  have hlt := Nat.not_le.mp hle
  by_cases hs : s.src.len < s.offset + nibbleLength p.lengthNibble
  · refine ⟨1, by omega, ?_⟩
    rw [run_one (hstep.trans (decodePrefixStep_of_tooLong hlt hs)), decodeRest_of_tooLong hlt hs,
      endWith_raise]
    rfl
  · have hfits := Nat.not_lt.mp hs
    obtain ⟨-, h60⟩ := nibbleLength_bounds p.lengthNibble
    obtain ⟨n, hn, hrun⟩ := run_decodeOptions (s := s.setPhase (.decodeOptions
      ⟨headerOfPrefix p, 20, nibbleLength p.lengthNibble, []⟩)) hr rfl hlt hfits (Nat.le_refl _)
    refine ⟨n + 1, ?_, ?_⟩
    · have : n ≤ nibbleLength p.lengthNibble - 20 := hn
      omega
    · rw [run_next (hstep.trans (decodePrefixStep_of_options hlt hfits)), hrun,
        decodeRest_of_options hlt hfits, endWith_bind_ok]
      exact endWith_setPhase _ fun _ => rfl

theorem advance_walk_decode {s : State} {es : List HostEvent} (hp : s.phase = .idle)
    (hh : s.host = .walk 0#2 :: es) : advance s = startDecode { s with host := es, op := 0#2 } := by
  rw [advance_host hp hh]
  rfl

/-- A step that starts a DECODE from `u` is followed by a run that ends as DECODE of `u` does. -/
theorem run_startDecode {s u : State} (hstep : step s = startDecode u) (hr : u.resetIn = none) :
    ∃ n, n ≤ 42 ∧ Sys2Proof.core.run n s = exec .decode u := by
  by_cases hs : u.src.len < u.offset + 20
  · exact ⟨1, by omega, (run_one (hstep.trans (startDecode_of_short hs))).trans
      (exec_decode_of_raise (decodeHeader_short hs)).symm⟩
  · have hf := Nat.not_lt.mp hs
    obtain ⟨n, hn, hrun⟩ := run_decodePrefix (s := u.setPhase .decodePrefix) hr rfl hf
    exact ⟨n + 1, by omega, (run_next (hstep.trans (startDecode_of_fits hf))).trans
      (hrun.trans (exec_decode_setPhase u _))⟩

/-- Settles O48: the start is R81's check, and from the prefix on the run computes what DECODE computes. -/
theorem decodeRecordByRecordAgrees : Obligations.DecodeRecordByRecordAgrees :=
  fun _ _ hp hr hh => run_startDecode ((step_of_noReset hr).trans (advance_walk_decode hp hh)) hr

/-! ### ENCODE -/

/-- One step for each entry and one for the sentinel: the run writes their bytes from the cursor on. -/
theorem run_encodeOptions {os : List Entry} {s : State} {e : EncodeLocal} (hr : s.resetIn = none)
    (hp : s.phase = .encodeOptions e) (hq : e.pending = os)
    (hf : e.start + e.pos + (entriesWireLen os + 1) ≤ e.out.len) :
    ∃ out, e.out.writeBytes (e.start + e.pos) (entriesWire os ++ [Config.kindEol]) = .ok out ∧
      Sys2Proof.core.run (os.length + 1) s = .next (s.endBytes out) := by
  induction os generalizing s e with
  | nil =>
    obtain ⟨out, hout, hemit⟩ := emit_fits (e := e) (bytes := [Config.kindEol]) hf
    have hadv := advance_encodeSentinel hp hq
    rw [hemit, endWith_ok] at hadv
    exact ⟨out, hout, run_one ((step_of_noReset hr).trans hadv)⟩
  | cons o os ih =>
    rw [entriesWireLen] at hf
    obtain ⟨out, hout, hemit⟩ := emit_fits (e := e) (bytes := entryBytes o)
      (by rw [entryBytes_length]; omega)
    have hadv := advance_encodeEntry hp hq
    rw [hemit, endWith_ok] at hadv
    obtain ⟨out', hout', hrun⟩ := ih (s := s.setPhase (.encodeOptions
      ⟨out, e.start, e.pos + (entryBytes o).length, e.pending.tail⟩)) hr rfl
      (show e.pending.tail = os by rw [hq, List.tail_cons])
      (show e.start + (e.pos + (entryBytes o).length) + (entriesWireLen os + 1) ≤ out.len by
        rw [Memory.writeBytes_len hout, entryBytes_length]
        omega)
    refine ⟨out', ?_, (run_next ((step_of_noReset hr).trans hadv)).trans hrun⟩
    rw [entriesWire, List.append_assoc, Memory.writeBytes_append, hout, op_bind_ok, Nat.add_assoc]
    exact hout'

/-- From the fixed prefix on an ENCODE takes at most 41 steps: the prefix, at most 39 entries and the sentinel
(R73), and writes the Header's bytes from the header start on. -/
theorem run_encodePrefix {s : State} {e : EncodeLocal} (hr : s.resetIn = none)
    (hp : s.phase = .encodePrefix e) (hv : Valid s.header) (hpos : e.pos = 0)
    (hq : e.pending = s.header.options) (hf : e.start + s.header.headerLength ≤ e.out.len) :
    ∃ n out, n ≤ 41 ∧ e.out.writeBytes e.start (headerWire s.header) = .ok out ∧
      Sys2Proof.core.run n s = .next (s.endBytes out) := by
  obtain ⟨h20, -, h60, hopts⟩ := lengths_of_valid hv
  obtain ⟨out, hout, hemit⟩ := emit_fits (e := e) (bytes := prefixBytes (prefixOfHeader s.header))
    (by rw [hpos, prefixBytes_length]; omega)
  have hstep := (step_of_noReset hr).trans (advance_encodePrefix hp)
  rw [hemit, endWith_ok, State.prefixWritten] at hstep
  rw [hpos, Nat.add_zero] at hout
  by_cases ho : s.header.options = []
  · rw [if_pos (hq.trans ho)] at hstep
    refine ⟨1, out, by omega, ?_, run_one hstep⟩
    rw [headerWire, optionsWire, if_pos ho, List.append_nil]
    exact hout
  · rw [if_neg (hq ▸ ho), hpos, Nat.zero_add, prefixBytes_length] at hstep
    rw [optionsWireLen, if_neg ho] at hopts
    have hcount := length_le_entriesWireLen s.header.options
    obtain ⟨out', hout', hrun⟩ := run_encodeOptions (s := s.setPhase (.encodeOptions
      ⟨out, e.start, 20, e.pending⟩)) hr rfl hq
      (show e.start + 20 + (entriesWireLen s.header.options + 1) ≤ out.len by
        rw [Memory.writeBytes_len hout]
        omega)
    refine ⟨s.header.options.length + 2, out', by omega, ?_, (run_next hstep).trans hrun⟩
    rw [headerWire, optionsWire, if_neg ho, Memory.writeBytes_append, hout, op_bind_ok, prefixBytes_length]
    exact hout'

theorem advance_walk_encode {s : State} {es : List HostEvent} (hp : s.phase = .idle)
    (hh : s.host = .walk 2#2 :: es) : advance s = startEncode { s with host := es, op := 2#2 } := by
  rw [advance_host hp hh]
  rfl

/-- The start of an ENCODE whose checks raise is the whole of it (R101, R103). -/
theorem startEncode_of_raise {s : State} {k : ErrorKind}
    (h : encodeStart s.header s.bufPresent s.dst s.offset = raising k) :
    startEncode s = .next (s.raise k) := by
  rw [startEncode, h, endWith_raise]

theorem startEncode_of_valid {s : State} (hv : Valid s.header)
    (hf : s.bufPresent = true → s.offset + s.header.headerLength ≤ s.dst.len) :
    startEncode s = .next (s.beginEncode (destination s.header s.bufPresent s.dst s.offset)) := by
  rw [startEncode, encodeStart_ok hv hf, endWith_ok]

/-- A step that starts an ENCODE from `u` is followed by a run that ends as ENCODE of `u` does. -/
theorem run_startEncode {s u : State} (hstep : step s = startEncode u) (hr : u.resetIn = none) :
    ∃ n, n ≤ 42 ∧ Sys2Proof.core.run n s = exec .encode u := by
  have hraise : ∀ {k}, encodeStart u.header u.bufPresent u.dst u.offset = raising k →
      ∃ n, n ≤ 42 ∧ Sys2Proof.core.run n s = exec .encode u := fun hx =>
    ⟨1, by omega, (run_one (hstep.trans (startEncode_of_raise hx))).trans (exec_encode_of_raise hx).symm⟩
  obtain ⟨hv, hf⟩ | hx | hx := encodeStart_cases u.header u.bufPresent u.dst u.offset
  · obtain ⟨n, out, hn, hout, hrun⟩ := run_encodePrefix
      (s := u.beginEncode (destination u.header u.bufPresent u.dst u.offset)) hr rfl hv rfl rfl
      (destination_fits hf)
    obtain ⟨out', hout', hexec⟩ := exec_encode_of_valid hv hf
    cases hout.symm.trans hout'
    exact ⟨n + 1, by omega,
      (run_next (hstep.trans (startEncode_of_valid hv hf))).trans (hrun.trans hexec.symm)⟩
  · exact hraise hx
  · exact hraise hx

/-- Settles O49: the start is the two checks of ENCODE, and from the prefix on the run writes the bytes ENCODE
writes in one run. -/
theorem encodeRecordByRecordAgrees : Obligations.EncodeRecordByRecordAgrees :=
  fun _ _ hp hr hh => run_startEncode ((step_of_noReset hr).trans (advance_walk_encode hp hh)) hr

end Sys2Proof.Machine
end

section
/-! PROOFS. The host's actions between operations: the collaborator and the hand-overs
(spec/43_checksum_hook.md R122; spec/20_memory.md R43, R45; spec/10_state.md R18). -/

namespace Sys2Proof.Machine

/-- Settles O51: the two bytes are one run of writes, which fits in DST. -/
theorem collaboratorChangesTwoBytes : Obligations.CollaboratorChangesTwoBytes := by
  intro s b16 b17 es hp hr hh hw hf
  obtain ⟨m, hm⟩ := Memory.writeBytes_fits (m := s.dst) (a := s.offset + 16) (bs := [b16, b17]) hf
  refine ⟨m, ?_, Memory.writeBytes_len hm, Memory.get_writeBytes_same hw hm (k := 0) Nat.zero_lt_two,
    Memory.get_writeBytes_same hw hm (k := 1) Nat.one_lt_two, fun a h16 h17 => ?_⟩
  · rw [step_of_noReset hr, advance_collaborator hp hh, collaborate, hm, endWith_ok]
  · refine Memory.get_writeBytes_other hm ?_
    show a < s.offset + 16 ∨ s.offset + 16 + 2 ≤ a
    omega

/-- Settles O52: each hand-over drives one port, with the valid result or with a free value. -/
theorem handOversPassTheResult : Obligations.HandOversPassTheResult := by
  intro s es hp hr
  rw [step_of_noReset hr]
  refine ⟨fun hh => ?_, fun m hh hm => ?_, fun m hh hm => ?_, fun h hh hres => ?_, fun hh hm => ?_,
    fun hh hm => ?_, fun hh hres => ?_⟩
  · rw [advance_host hp hh]
    rfl
  · rw [advance_host hp hh]
    simp only [hostAction, hm, withResult_some]
  · rw [advance_host hp hh]
    simp only [hostAction, hm, withResult_some]
  · rw [advance_host hp hh]
    simp only [hostAction, hres, withResult_some]
  · rw [advance_host hp hh]
    simp only [hostAction, hm, withResult_none]
    exact ⟨_, _, invalidBuffer_wf _, rfl⟩
  · rw [advance_host hp hh]
    simp only [hostAction, hm, withResult_none]
    exact ⟨_, _, invalidBuffer_wf _, rfl⟩
  · rw [advance_host hp hh]
    simp only [hostAction, hres, withResult_none]
    exact ⟨_, _, rfl⟩

end Sys2Proof.Machine
end
